-- ==== Sys2Proof/Word.lean ====
section
/-! DEFINITION. The word types of the WPU core: the byte of a register or memory cell and the 32-bit
instruction word (00_scope.md R5, 30_encoding.md R80). -/

namespace Sys2Proof

/-- The content of a general register or of a memory cell: an unsigned 8-bit value (00_scope.md R5). -/
abbrev Byte := BitVec 8

/-- One program entry at Level W: a 32-bit instruction word (30_encoding.md R80). -/
abbrev Word := BitVec 32

end Sys2Proof
end

