-- ==== Sys2Proof/Config.lean ====
section
/-! DEFINITION. What the spec fixes once for the machine: the sizes of 00_scope.md R5 and its table of
implementation parameters. There is no free value: no instruction has an undefined result
(93_implementation_defined.md section 3). -/

namespace Sys2Proof

/-- The index of one of the `NREG` = 8 general registers (00_scope.md R5). -/
abbrev RegIndex := Fin 8

/-- The address of one of the `NMEM` = 16 memory cells (00_scope.md R5, 20_memory.md R50). -/
abbrev CellAddr := Fin 16

namespace Config

/-- `PROG_LEN_MAX`: the most entries a Level W program may have (30_encoding.md R96). -/
def progLenMax : Nat := 65535

/-- The largest jump target a word can hold (30_encoding.md R84, R94 (b)). -/
def targetMax : Nat := 65535

/-- The smallest IMM literal the assembler encodes (30_encoding.md R92, R94 (c)). -/
def literalMin : Int := -32768

/-- The largest IMM literal the assembler encodes (30_encoding.md R92, R94 (c)). -/
def literalMax : Int := 65535

/-- What a memory cell reads as that the memory's list does not name: the reset value 0
(10_state.md R34, 44_loadstore.md R191: "A cell never stored to since `reset` reads as 0"). -/
def unlistedByte : Byte := 0

end Config

end Sys2Proof
end

