-- ==== Sys2Proof/Syntax.lean ====
section
/-! DEFINITION. The decoded instruction of 30_encoding.md R75, one constructor per row of
spec/opcode_table.json, and the textual objects of Level T (lines, tokens, the Label Table). -/

namespace Sys2Proof

/-- A register index or memory address operand (30_encoding.md R75). -/
inductive Operand where
  /-- The number written in the line, or held by the word's field. -/
  | num (n : Nat)
  /-- The token is missing, is not a number, or is negative. Never decoded from a word. -/
  | bad
  deriving DecidableEq, Repr

/-- The literal operand of IMM (30_encoding.md R75). -/
inductive Literal where
  /-- The integer written in the line, or held by the word's 16-bit field. -/
  | lit (i : Int)
  /-- The token is missing or is not a number. Never decoded from a word. -/
  | bad
  deriving DecidableEq, Repr

/-- A decoded jump target (30_encoding.md R75, R78). -/
inductive Target where
  /-- An absolute instruction index. -/
  | resolved (t : Nat)
  /-- Neither a known label nor a number. -/
  | unresolved
  deriving DecidableEq, Repr

/-- The decoded instruction (30_encoding.md R75). The rows `JMP.U` and `CALL.U` of the opcode table
are R75's `JMP(unresolved)` and `CALL(unresolved)`. -/
inductive Instr where
  | skip
  | noop
  | add (a b c : Operand)
  | sub (a b c : Operand)
  | or (a b c : Operand)
  | xor (a b c : Operand)
  | and (a b c : Operand)
  | not (a : Operand)
  | rsh (a b : Operand)
  | imm (a : Operand) (v : Literal)
  | jmp (t : Nat)
  | jmpU
  | call (t : Nat)
  | callU
  | ret
  | jmpx
  | rlod (a m : Operand)
  | rstr (a m : Operand)
  | unknown
  deriving DecidableEq, Repr

/-- One line of a textual program, without its line feed (30_encoding.md R70). -/
abbrev Line := List Char

/-- A maximal run of non-whitespace characters of a line (30_encoding.md R73). -/
abbrev Token := List Char

/-- The Label Table: label name to instruction index (30_encoding.md R72). Each name is listed once. -/
abbrev LabelTable := List (Token × Nat)

/-- The twelve command tokens (30_encoding.md R74). -/
inductive Command where
  | noop
  | add
  | sub
  | or
  | xor
  | and
  | not
  | rsh
  | imm
  | jmp
  | rlod
  | rstr
  deriving DecidableEq, Repr

end Sys2Proof
end

