-- ==== Sys2Proof/Machine/State.lean ====
section
/-! DEFINITION. The state of the WPU core (10_state.md R20), its reset value (R34), and the reasons a
step can stop. -/

namespace Sys2Proof.Machine

/-- The data memory `M[0..15]`: the cells that differ from `Config.unlistedByte`, addresses strictly
rising. `Memory.wf` says the form holds. -/
abbrev Memory := List Host.Cell

/-- The run state (10_state.md R29). -/
inductive RunState where
  | idle
  | running
  | halted
  deriving DecidableEq, Repr

/-- The event output (60_exceptions.md R203). -/
inductive Event where
  | none
  | invalidOperand
  | unresolvedTarget
  | unknownInstruction
  | emptyCallStack
  | programFinished
  deriving DecidableEq, Repr

/-- The error kinds, exactly four (60_exceptions.md R200). -/
inductive ErrorKind where
  | invalidOperand
  | unresolvedTarget
  | unknownInstruction
  | emptyCallStack
  deriving DecidableEq, Repr

/-- The program image of a run (10_state.md R20, 00_scope.md R7). -/
inductive Image where
  /-- Level W: the list of instruction words, one per source line. -/
  | words (P : List Word)
  /-- Level T: the Program, one entry per source line, with its Label Table. -/
  | text (lines : List Line) (labels : LabelTable)
  deriving DecidableEq, Repr

/-- The whole mutable state (10_state.md R20), and the event output of the last input event. -/
structure State where
  /-- The Register File `x[0..7]` (10_state.md R21). -/
  x : Vector Byte 8
  /-- The Memory `M[0..15]` (10_state.md R24). -/
  mem : Memory
  /-- The Call Stack `S`, top first (10_state.md R28). -/
  callStack : List Nat
  /-- The program counter, an instruction index (10_state.md R25). -/
  pc : Nat
  /-- The run state (10_state.md R29). -/
  run : RunState
  /-- The program image of the current run (10_state.md R20). -/
  image : Image
  /-- The `event` output of the last input event (60_exceptions.md R203); the model's own field. -/
  event : Event
  deriving DecidableEq, Repr

/-- The faults of the machine: none. Every decoded instruction in every state has exactly one next state
(93_implementation_defined.md section 3); the error kinds are next states (60_exceptions.md R204, R205). -/
inductive Fault where
  deriving DecidableEq, Repr

/-- The reasons the model gives no meaning. All are safe: the model stops and claims nothing. -/
inductive Refusal where
  /-- Raised by an arm of `exec` whose instruction has no meaning yet; no arm raises it. Safe. -/
  | notModelled (mnemonic : String)
  /-- Raised by a start of a Level T program with a line that 30_encoding.md R94 (a) refuses (a jump target
  spelled with a minus sign), and by a tick that fetches such a line. Safe: the spec asks for it. -/
  | negativeTarget
  /-- Raised by a start of a Level W image of more than `Config.progLenMax` entries (30_encoding.md R96).
  Safe: the spec asks for it. -/
  | programTooLong
  deriving DecidableEq, Repr

/-- The machine after `reset`, and at power-on (10_state.md R34, 70_reset_and_hazards.md R230, R231). -/
def State.reset : State where
  x := Vector.replicate 8 0
  mem := []
  callStack := []
  pc := 0
  run := .idle
  image := .words []
  event := .none

end Sys2Proof.Machine
end

