-- ==== Sys2Proof/Machine/Ops.lean ====
section
/-! DEFINITION. The named operations over registers, memory, the Call Stack, the pc and the run state,
and the one operation that takes an error (00_scope.md section 7, 60_exceptions.md R204, R205). The
machine has no return from an error (60_exceptions.md R208). -/

namespace Sys2Proof.Machine

/-! ## Memory -/

/-- The byte the list holds for address `a` (20_memory.md R57). -/
def memGet (m : Memory) (a : Nat) : Byte :=
  match m with
  | [] => Config.unlistedByte
  | (k, v) :: rest => if k = a then v else memGet rest a

/-- The list with address `a` holding `v`, in canonical form: writing what an unlisted cell reads as
removes the entry. -/
def memSet (m : Memory) (a : Nat) (v : Byte) : Memory :=
  match m with
  | [] => if v = Config.unlistedByte then [] else [(a, v)]
  | (k, w) :: rest =>
    if a < k then (if v = Config.unlistedByte then (k, w) :: rest else (a, v) :: (k, w) :: rest)
    else if a = k then (if v = Config.unlistedByte then rest else (a, v) :: rest)
    else (k, w) :: memSet rest a v

/-- Canonical form from address `lo` up: addresses rise strictly and stay below 16, and no entry holds what
an unlisted cell reads as. -/
def memWfFrom (lo : Nat) : Memory → Bool
  | [] => true
  | (k, v) :: rest =>
    decide (lo ≤ k) && decide (k < 16) && decide (v ≠ Config.unlistedByte) && memWfFrom (k + 1) rest

/-- The canonical form of the memory list. -/
def Memory.wf (m : Memory) : Bool := memWfFrom 0 m

/-! ## Accessors of the state (00_scope.md section 7) -/

/-- `x[r]` (00_scope.md section 7). No register is hard-wired (10_state.md R21). -/
def State.readReg (s : State) (r : RegIndex) : Byte := s.x[r]

/-- `x[r] <- v` (00_scope.md section 7). -/
def State.writeReg (s : State) (r : RegIndex) (v : Byte) : State := { s with x := s.x.set r v }

/-- `MemRead(a, 1)` (00_scope.md section 7, 20_memory.md R53). -/
def State.memRead (s : State) (a : CellAddr) : Byte := memGet s.mem a

/-- `MemWrite(a, 1, v)` (00_scope.md section 7, 20_memory.md R53). -/
def State.memWrite (s : State) (a : CellAddr) (v : Byte) : State :=
  { s with mem := memSet s.mem a v }

/-- `pc <- t` (00_scope.md section 7). -/
def State.setPc (s : State) (t : Nat) : State := { s with pc := t }

/-- The default advance `pc <- pc + 1` (40_sequencer.md R113). -/
def State.advance (s : State) : State := s.setPc (s.pc + 1)

/-- `run <- r` (00_scope.md section 7). -/
def State.setRun (s : State) (r : RunState) : State := { s with run := r }

/-- `event <- e` (00_scope.md section 7). -/
def State.setEvent (s : State) (e : Event) : State := { s with event := e }

/-- The Call Stack replaced whole. -/
def State.setCallStack (s : State) (st : List Nat) : State := { s with callStack := st }

/-- The program image replaced whole. -/
def State.setImage (s : State) (im : Image) : State := { s with image := im }

/-- `push(S, a)` (00_scope.md section 7). -/
def State.push (s : State) (a : Nat) : State := s.setCallStack (a :: s.callStack)

/-! ## Errors (60_exceptions.md) -/

/-- The event an error kind is reported as (60_exceptions.md R203). -/
def ErrorKind.event : ErrorKind → Event
  | .invalidOperand => .invalidOperand
  | .unresolvedTarget => .unresolvedTarget
  | .unknownInstruction => .unknownInstruction
  | .emptyCallStack => .emptyCallStack

/-- Only `EmptyCallStack` is fatal (60_exceptions.md R204, R205). -/
def ErrorKind.isFatal : ErrorKind → Bool
  | .invalidOperand => false
  | .unresolvedTarget => false
  | .unknownInstruction => false
  | .emptyCallStack => true

/-- `raise K()` (00_scope.md section 7): the event is the kind and nothing is written. A recoverable error
advances the pc and leaves `run` (60_exceptions.md R204); the fatal one holds the pc and halts the run (R205). -/
def State.raise (s : State) (k : ErrorKind) : State :=
  if k.isFatal then (s.setEvent k.event).setRun .halted else (s.setEvent k.event).advance

/-! ## The sequencer's own updates (40_sequencer.md) -/

/-- The event default of a tick that executes an entry (40_sequencer.md R113). -/
def State.beginEntry (s : State) : State := s.setEvent .none

/-- A running tick that finds `pc ≥ len(P)` (40_sequencer.md R113). -/
def State.finishProgram (s : State) : State := (s.setRun .halted).setEvent .programFinished

/-- A tick of a core that is not running (40_sequencer.md R112): nothing changes, the event is `none`. -/
def State.idleTick (s : State) : State := s.setEvent .none

end Sys2Proof.Machine
end

