-- ==== Sys2Proof/Machine/Operands.lean ====
section
/-! DEFINITION. The operand checks of 00_scope.md section 7 and what an operand that passes its check
names, and the value of an IMM literal. The machine has one addressing mode, absolute (44_loadstore.md R190),
and no flags (10_state.md R31), so there is no flag computation. -/

namespace Sys2Proof.Machine

/-- `reg_ok(o)`: a number below 8 (00_scope.md section 7, 10_state.md R22). -/
def regOk : Operand → Bool
  | .num n => decide (n < 8)
  | .bad => false

/-- `mem_ok(o)`: a number below 16 (00_scope.md section 7, 20_memory.md R56). -/
def memOk : Operand → Bool
  | .num n => decide (n < 16)
  | .bad => false

/-- The register an operand names when `regOk` holds. -/
def regOf : Operand → Option RegIndex
  | .num n => if h : n < 8 then some ⟨n, h⟩ else none
  | .bad => none

/-- The memory cell an operand names when `memOk` holds. -/
def cellOf : Operand → Option CellAddr
  | .num n => if h : n < 16 then some ⟨n, h⟩ else none
  | .bad => none

/-- The byte IMM writes: the literal modulo 256 (42_imm.md R160). -/
def literalByte : Literal → Option Byte
  | .lit i => some (BitVec.ofInt 8 i)
  | .bad => none

end Sys2Proof.Machine
end

