-- ==== Sys2Proof/Machine/Alu.lean ====
section
/-! DEFINITION. The arithmetic and logic instructions (41_alu.md): all checks come before the one write
(R140), and every result is an 8-bit value modulo 256 with no flag (R148). -/

namespace Sys2Proof.Machine

/-- A three-register instruction: checks a, b and c, then writes `f x[a] x[b]` to register c; both reads come
before the write (41_alu.md R140, R141). -/
def aluThree (f : Byte → Byte → Byte) (a b c : Operand) (s : State) :
    Host.Outcome State Fault Refusal :=
  match regOf a, regOf b, regOf c with
  | some ra, some rb, some rc =>
    .next (s.writeReg rc (f (s.readReg ra) (s.readReg rb))).advance
  | _, _, _ => .next (s.raise .invalidOperand)

/-- ADD (41_alu.md R141): `x[c] <- (x[b] + x[a]) mod 256`. -/
def execAdd (a b c : Operand) (s : State) : Host.Outcome State Fault Refusal :=
  aluThree (fun va vb => vb + va) a b c s

/-- SUB (41_alu.md R142): `x[c] <- (x[b] - x[a]) mod 256`, the first operand taken from the second. -/
def execSub (a b c : Operand) (s : State) : Host.Outcome State Fault Refusal :=
  aluThree (fun va vb => vb - va) a b c s

/-- OR (41_alu.md R143): `x[c] <- x[a] | x[b]`. -/
def execOr (a b c : Operand) (s : State) : Host.Outcome State Fault Refusal :=
  aluThree (fun va vb => va ||| vb) a b c s

/-- XOR (41_alu.md R144): `x[c] <- x[a] ^ x[b]`. -/
def execXor (a b c : Operand) (s : State) : Host.Outcome State Fault Refusal :=
  aluThree (fun va vb => va ^^^ vb) a b c s

/-- AND (41_alu.md R145): `x[c] <- x[a] & x[b]`. -/
def execAnd (a b c : Operand) (s : State) : Host.Outcome State Fault Refusal :=
  aluThree (fun va vb => va &&& vb) a b c s

/-- NOT (41_alu.md R146): `x[a] <- ~x[a]`. -/
def execNot (a : Operand) (s : State) : Host.Outcome State Fault Refusal :=
  match regOf a with
  | some ra => .next (s.writeReg ra (~~~(s.readReg ra))).advance
  | none => .next (s.raise .invalidOperand)

/-- RSH (41_alu.md R147): `x[b] <- x[a] >> 1`, a logical shift by one position. -/
def execRsh (a b : Operand) (s : State) : Host.Outcome State Fault Refusal :=
  match regOf a, regOf b with
  | some ra, some rb => .next (s.writeReg rb (s.readReg ra >>> 1)).advance
  | _, _ => .next (s.raise .invalidOperand)

end Sys2Proof.Machine
end

