-- ==== Sys2Proof/Machine/Control.lean ====
section
/-! DEFINITION. The control transfers (43_control.md). A taken transfer sets the pc and the default advance is
not added (R170); a resolved target is not range-checked (R177). -/

namespace Sys2Proof.Machine

/-- JMP 00 with a resolved target (43_control.md R172). -/
def execJmp (t : Nat) (s : State) : Host.Outcome State Fault Refusal := .next (s.setPc t)

/-- JMP 00 with an unresolved target (43_control.md R172): the jump is not taken. -/
def execJmpU (s : State) : Host.Outcome State Fault Refusal := .next (s.raise .unresolvedTarget)

/-- JMP 10 with a resolved target (43_control.md R173): pushes the index after the call, then jumps. -/
def execCall (t : Nat) (s : State) : Host.Outcome State Fault Refusal :=
  .next ((s.push (s.pc + 1)).setPc t)

/-- JMP 10 with an unresolved target (43_control.md R173): nothing is pushed (decision D9). -/
def execCallU (s : State) : Host.Outcome State Fault Refusal := .next (s.raise .unresolvedTarget)

/-- JMP 01 (43_control.md R174): pops the Call Stack into the pc; an empty stack is the fatal error. -/
def execRet (s : State) : Host.Outcome State Fault Refusal :=
  match s.callStack with
  | [] => .next (s.raise .emptyCallStack)
  | t :: rest => .next ((s.setCallStack rest).setPc t)

/-- JMPX (43_control.md R175): a `JMP` line that is none of the three forms always raises `InvalidOperand`. -/
def execJmpx (s : State) : Host.Outcome State Fault Refusal := .next (s.raise .invalidOperand)

end Sys2Proof.Machine
end

