-- ==== Sys2Proof/Machine/Immediate.lean ====
section
/-! DEFINITION. Load immediate (42_imm.md). -/

namespace Sys2Proof.Machine

/-- IMM (42_imm.md R160): both checks come before the write; `x[a] <- i mod 256`. -/
def execImm (a : Operand) (v : Literal) (s : State) : Host.Outcome State Fault Refusal :=
  match regOf a, literalByte v with
  | some ra, some b => .next (s.writeReg ra b).advance
  | _, _ => .next (s.raise .invalidOperand)

end Sys2Proof.Machine
end

