-- ==== Sys2Proof/Machine/LoadStore.lean ====
section
/-! DEFINITION. Load and store (44_loadstore.md): both operands are checked before the access (R190). -/

namespace Sys2Proof.Machine

/-- RLOD (44_loadstore.md R191): `x[a] <- M[m]`; memory is not changed. -/
def execRlod (a m : Operand) (s : State) : Host.Outcome State Fault Refusal :=
  match regOf a, cellOf m with
  | some ra, some cell => .next (s.writeReg ra (s.memRead cell)).advance
  | _, _ => .next (s.raise .invalidOperand)

/-- RSTR (44_loadstore.md R192): `M[m] <- x[a]`; no register changes. -/
def execRstr (a m : Operand) (s : State) : Host.Outcome State Fault Refusal :=
  match regOf a, cellOf m with
  | some ra, some cell => .next (s.memWrite cell (s.readReg ra)).advance
  | _, _ => .next (s.raise .invalidOperand)

end Sys2Proof.Machine
end

