-- ==== Sys2Proof/Machine/Sequencer.lean ====
section
/-! DEFINITION. The instructions of the sequencer: SKIP, NOOP, UNKNOWN (40_sequencer.md section 4). -/

namespace Sys2Proof.Machine

/-- SKIP (40_sequencer.md R117): a blank line or a label line only advances the pc. -/
def execSkip (s : State) : Host.Outcome State Fault Refusal := .next s.advance

/-- NOOP (40_sequencer.md R119): halts the run; the pc is held (decision D12) and no event is reported
(decision D23). -/
def execNoop (s : State) : Host.Outcome State Fault Refusal := .next (s.setRun .halted)

/-- UNKNOWN (40_sequencer.md R118): always raises `UnknownInstruction`. -/
def execUnknown (s : State) : Host.Outcome State Fault Refusal := .next (s.raise .unknownInstruction)

end Sys2Proof.Machine
end

