-- ==== Sys2Proof/Machine/Dispatch.lean ====
section
/-! DEFINITION. One arm per constructor of `Instr`, each one direct call of its meaning. -/

namespace Sys2Proof.Machine

/-- The effect of a decoded instruction, by the rules of 40_sequencer.md to 44_loadstore.md. -/
def exec (i : Instr) (s : State) : Host.Outcome State Fault Refusal :=
  match i with
  | .skip => Sys2Proof.Machine.execSkip s
  | .noop => Sys2Proof.Machine.execNoop s
  | .add a b c => Sys2Proof.Machine.execAdd a b c s
  | .sub a b c => Sys2Proof.Machine.execSub a b c s
  | .or a b c => Sys2Proof.Machine.execOr a b c s
  | .xor a b c => Sys2Proof.Machine.execXor a b c s
  | .and a b c => Sys2Proof.Machine.execAnd a b c s
  | .not a => Sys2Proof.Machine.execNot a s
  | .rsh a b => Sys2Proof.Machine.execRsh a b s
  | .imm a v => Sys2Proof.Machine.execImm a v s
  | .jmp t => Sys2Proof.Machine.execJmp t s
  | .jmpU => Sys2Proof.Machine.execJmpU s
  | .call t => Sys2Proof.Machine.execCall t s
  | .callU => Sys2Proof.Machine.execCallU s
  | .ret => Sys2Proof.Machine.execRet s
  | .jmpx => Sys2Proof.Machine.execJmpx s
  | .rlod a m => Sys2Proof.Machine.execRlod a m s
  | .rstr a m => Sys2Proof.Machine.execRstr a m s
  | .unknown => Sys2Proof.Machine.execUnknown s

end Sys2Proof.Machine
end

