-- ==== Sys2Proof/WellFormed.lean ====
section
/-! DEFINITION. Which decoded instructions a word can hold: what 30_encoding.md R75 says of Level W
("every n is at most 255, every i is in [0, 65535] and every t is in [0, 65535]", no `bad`), and
which ones the assembler refuses (R94). -/

namespace Sys2Proof

/-- The operand fits an 8-bit field as it stands (30_encoding.md R75, R83). -/
def Operand.wf : Operand → Bool
  | .num n => decide (n ≤ 255)
  | .bad => false

/-- The literal is one a word holds (30_encoding.md R75, R83). -/
def Literal.wf : Literal → Bool
  | .lit i => decide (0 ≤ i) && decide (i ≤ 65535)
  | .bad => false

/-- The instruction is one that some word decodes to (30_encoding.md R75). -/
def Instr.wf : Instr → Bool
  | .skip => true
  | .noop => true
  | .add a b c => a.wf && b.wf && c.wf
  | .sub a b c => a.wf && b.wf && c.wf
  | .or a b c => a.wf && b.wf && c.wf
  | .xor a b c => a.wf && b.wf && c.wf
  | .and a b c => a.wf && b.wf && c.wf
  | .not a => a.wf
  | .rsh a b => a.wf && b.wf
  | .imm a v => a.wf && v.wf
  | .jmp t => decide (t ≤ 65535)
  | .jmpU => true
  | .call t => decide (t ≤ 65535)
  | .callU => true
  | .ret => true
  | .jmpx => true
  | .rlod a m => a.wf && m.wf
  | .rstr a m => a.wf && m.wf
  | .unknown => true

/-- The literal is not one that the assembler refuses: malformed ones are encoded
(30_encoding.md R92, R94 (c)). -/
def Literal.assemblable : Literal → Bool
  | .lit i => decide (Config.literalMin ≤ i) && decide (i ≤ Config.literalMax)
  | .bad => true

/-- The decoded line is not refused by the assembler under 30_encoding.md R94 (b) or (c). Out-of-range
register indices and addresses are never refused: they are encoded and fail when executed (R91). -/
def Instr.assemblable : Instr → Bool
  | .skip => true
  | .noop => true
  | .add _ _ _ => true
  | .sub _ _ _ => true
  | .or _ _ _ => true
  | .xor _ _ _ => true
  | .and _ _ _ => true
  | .not _ => true
  | .rsh _ _ => true
  | .imm _ v => v.assemblable
  | .jmp t => decide (t ≤ Config.targetMax)
  | .jmpU => true
  | .call t => decide (t ≤ Config.targetMax)
  | .callU => true
  | .ret => true
  | .jmpx => true
  | .rlod _ _ => true
  | .rstr _ _ => true
  | .unknown => true

end Sys2Proof
end

