-- ==== Sys2Proof/Decode.lean ====
section
/-! DEFINITION. Decoding and encoding. Level W: `decodeW` of 30_encoding.md R85 (total, the rest
rejected by name as `unknown`), `encode` of R91 to R93, `asmWord` with the refusals of R94 (b) and (c).
Level T: tokens, numbers, targets and `decodeT` of R71, R73, R74, R76 to R79; the one line that has no
meaning (R94 (a)) decodes to `none`. -/

namespace Sys2Proof

/-! ## Level W: fields of a word -/

/-- bits[27:20]: the first operand (30_encoding.md R81). -/
def fieldA (w : Word) : Operand := .num (w.extractLsb' 20 8).toNat

/-- bits[19:12]: the second operand, register `b` or address `m` (30_encoding.md R81). -/
def fieldB (w : Word) : Operand := .num (w.extractLsb' 12 8).toNat

/-- bits[11:4]: the third operand (30_encoding.md R81). -/
def fieldC (w : Word) : Operand := .num (w.extractLsb' 4 8).toNat

/-- bits[19:4]: the IMM literal or the jump target, an unsigned 16-bit number (30_encoding.md R83). -/
def field16 (w : Word) : Nat := (w.extractLsb' 4 16).toNat

/-! ## Level W: decode -/

/-- One row of the table of 30_encoding.md R85. -/
structure DecodeRow where
  mask : Word
  pattern : Word
  build : Word → Instr

/-- `w & mask = match` (30_encoding.md R85). -/
def DecodeRow.matchesWord (r : DecodeRow) (w : Word) : Bool := w &&& r.mask == r.pattern

/-- Rows 1 to 18 of the table of 30_encoding.md R85, top to bottom. Row 19 matches every word and
decodes to UNKNOWN: `decodeW` holds it. -/
def decodeTable : List DecodeRow :=
  [ ⟨0xFFFFFFFF#32, 0x00000000#32, fun _ => .skip⟩,
    ⟨0xFFFFFFFF#32, 0x10000000#32, fun _ => .noop⟩,
    ⟨0xF000000F#32, 0x20000000#32, fun w => .add (fieldA w) (fieldB w) (fieldC w)⟩,
    ⟨0xF000000F#32, 0x30000000#32, fun w => .sub (fieldA w) (fieldB w) (fieldC w)⟩,
    ⟨0xF000000F#32, 0x40000000#32, fun w => .or (fieldA w) (fieldB w) (fieldC w)⟩,
    ⟨0xF000000F#32, 0x50000000#32, fun w => .xor (fieldA w) (fieldB w) (fieldC w)⟩,
    ⟨0xF000000F#32, 0x60000000#32, fun w => .and (fieldA w) (fieldB w) (fieldC w)⟩,
    ⟨0xF00FFFFF#32, 0x70000000#32, fun w => .not (fieldA w)⟩,
    ⟨0xF0000FFF#32, 0x80000000#32, fun w => .rsh (fieldA w) (fieldB w)⟩,
    ⟨0xF000000F#32, 0x90000000#32, fun w => .imm (fieldA w) (.lit (field16 w))⟩,
    ⟨0xFFF0000F#32, 0xA2000000#32, fun w => .jmp (field16 w)⟩,
    ⟨0xFFFFFFFF#32, 0xA0000000#32, fun _ => .jmpU⟩,
    ⟨0xFFF0000F#32, 0xAA000000#32, fun w => .call (field16 w)⟩,
    ⟨0xFFFFFFFF#32, 0xA8000000#32, fun _ => .callU⟩,
    ⟨0xFFFFFFFF#32, 0xA4000000#32, fun _ => .ret⟩,
    ⟨0xFFFFFFFF#32, 0xAC000000#32, fun _ => .jmpx⟩,
    ⟨0xF0000FFF#32, 0xB0000000#32, fun w => .rlod (fieldA w) (fieldB w)⟩,
    ⟨0xF0000FFF#32, 0xC0000000#32, fun w => .rstr (fieldA w) (fieldB w)⟩ ]

/-- `DecodeW(w)`: the first row that matches (30_encoding.md R85); a word that matches none of rows 1 to
18 is UNKNOWN (R86). Total: every one of the 2^32 words has a defined decode. -/
def decodeW (w : Word) : Instr :=
  match decodeTable.find? (·.matchesWord w) with
  | some r => r.build w
  | none => .unknown

/-! ## Level W: encode -/

/-- The 8-bit field of an operand (30_encoding.md R91): numbers above 255 and `bad` become 0xFF, which is
no register index and no address. -/
def Operand.field : Operand → BitVec 8
  | .num n => if n ≤ 255 then BitVec.ofNat 8 n else 0xFF#8
  | .bad => 0xFF#8

/-- A field `v` with its lowest bit at bit `lo` of the word, all other bits zero (30_encoding.md R81). -/
def place {n : Nat} (v : BitVec n) (lo : Nat) : Word := v.setWidth 32 <<< lo

/-- Format Z (30_encoding.md R81). -/
def wordZ (op : BitVec 4) : Word := place op 28

/-- Format R3 (30_encoding.md R81). -/
def wordR3 (op : BitVec 4) (a b c : BitVec 8) : Word :=
  place op 28 ||| place a 20 ||| place b 12 ||| place c 4

/-- Format R1 (30_encoding.md R81). -/
def wordR1 (op : BitVec 4) (a : BitVec 8) : Word := place op 28 ||| place a 20

/-- Formats R2 and M (30_encoding.md R81). -/
def wordR2 (op : BitVec 4) (a b : BitVec 8) : Word := place op 28 ||| place a 20 ||| place b 12

/-- Format I (30_encoding.md R81). -/
def wordI (op : BitVec 4) (a : BitVec 8) (imm16 : BitVec 16) : Word :=
  place op 28 ||| place a 20 ||| place imm16 4

/-- Format J (30_encoding.md R81, R84): op 0xA, the tag, the resolved bit, the target. -/
def wordJ (tag : BitVec 2) (resolvedBit : BitVec 1) (target : BitVec 16) : Word :=
  place 0xA#4 28 ||| place tag 26 ||| place resolvedBit 25 ||| place target 4

/-- The word of a decoded instruction (30_encoding.md R91 to R93). It is the encoding of every
instruction that `Instr.assemblable` admits; `asmWord` guards it for the others. -/
def encode : Instr → Word
  | .skip => wordZ 0x0#4
  | .noop => wordZ 0x1#4
  | .add a b c => wordR3 0x2#4 a.field b.field c.field
  | .sub a b c => wordR3 0x3#4 a.field b.field c.field
  | .or a b c => wordR3 0x4#4 a.field b.field c.field
  | .xor a b c => wordR3 0x5#4 a.field b.field c.field
  | .and a b c => wordR3 0x6#4 a.field b.field c.field
  | .not a => wordR1 0x7#4 a.field
  | .rsh a b => wordR2 0x8#4 a.field b.field
  | .imm a (.lit i) => wordI 0x9#4 a.field (BitVec.ofInt 16 i)
  | .imm _ .bad => wordI 0x9#4 0xFF#8 0#16
  | .jmp t => wordJ 0b00#2 1#1 (BitVec.ofNat 16 t)
  | .jmpU => wordJ 0b00#2 0#1 0#16
  | .call t => wordJ 0b10#2 1#1 (BitVec.ofNat 16 t)
  | .callU => wordJ 0b10#2 0#1 0#16
  | .ret => wordJ 0b01#2 0#1 0#16
  | .jmpx => wordJ 0b11#2 0#1 0#16
  | .rlod a m => wordR2 0xB#4 a.field m.field
  | .rstr a m => wordR2 0xC#4 a.field m.field
  | .unknown => wordZ 0xF#4

/-- `Encode` with the refusals of 30_encoding.md R94 (b) and (c): `none` is a refusal. -/
def asmWord (i : Instr) : Option Word := if i.assemblable then some (encode i) else none

/-- The instruction the decoder reads from the bits `w` of one row of spec/opcode_table.json. Every
instruction is one 32-bit word, fetched whole (30_encoding.md R80, 20_memory.md R54), so bit 0 of `w` is bit 0
of the word; more than 32 bits is no instruction. -/
def decodeTableWord (nbits w : Nat) : Option Instr :=
  if nbits ≤ 32 ∧ w < 2 ^ 32 then some (decodeW (BitVec.ofNat 32 w)) else none

/-! ## Level T: lines and tokens -/

/-- Whitespace: space, tab, carriage return (30_encoding.md R71; the same set separates tokens, R73). -/
def isSpace (c : Char) : Bool := c == ' ' || c == '\t' || c == '\r'

/-- The trimmed content of a line (30_encoding.md R71). -/
def trim (l : Line) : Line := ((l.dropWhile isSpace).reverse.dropWhile isSpace).reverse

/-- The tokens of a text, `cur` being the part already read of the current token. -/
def tokensFrom (cur : Token) : Line → List Token
  | [] => if cur = [] then [] else [cur]
  | c :: cs =>
    if isSpace c then (if cur = [] then tokensFrom [] cs else cur :: tokensFrom [] cs)
    else tokensFrom (cur ++ [c]) cs

/-- The maximal runs of non-whitespace characters (30_encoding.md R73). -/
def tokens (l : Line) : List Token := tokensFrom [] l

/-- ASCII folding to upper case (30_encoding.md R73). -/
def upperChar (c : Char) : Char :=
  if 'a' ≤ c ∧ c ≤ 'z' then Char.ofNat (c.toNat - 32) else c

/-- The command token folded to upper case (30_encoding.md R74). -/
def upperToken (t : Token) : Token := t.map upperChar

/-- The label name a line declares: all of the trimmed content after its first `.` (30_encoding.md R71). -/
def labelName (l : Line) : Option Token :=
  match trim l with
  | [] => none
  | c :: name => if c = '.' then some name else none

/-! ## Level T: numbers (30_encoding.md R77) -/

/-- The value of a decimal digit. -/
def digitValue (c : Char) : Option Nat :=
  if '0' ≤ c ∧ c ≤ '9' then some (c.toNat - 48) else none

/-- The value of decimal digits read after a prefix of value `acc`. -/
def decimalFrom (acc : Nat) : Token → Option Nat
  | [] => some acc
  | c :: cs =>
    match digitValue c with
    | some d => decimalFrom (acc * 10 + d) cs
    | none => none

/-- The value of one or more decimal digits (30_encoding.md R77, R78). -/
def decimal : Token → Option Nat
  | [] => none
  | c :: cs => decimalFrom 0 (c :: cs)

/-- The digits of a token spelled with a leading `-` and one or more digits (30_encoding.md R77, R78). -/
def negativeDecimal : Token → Option Nat
  | [] => none
  | c :: cs => if c = '-' then decimal cs else none

/-- The value of a number token (30_encoding.md R77). -/
def number (t : Token) : Option Int :=
  match decimal t with
  | some n => some (n : Int)
  | none =>
    match negativeDecimal t with
    | some n => some (-(n : Int))
    | none => none

/-- A register-index or memory-address token (30_encoding.md R77); `none` is an absent token. -/
def indexOperand : Option Token → Operand
  | none => .bad
  | some t =>
    match number t with
    | some i => if 0 ≤ i then .num i.toNat else .bad
    | none => .bad

/-- The IMM literal token (30_encoding.md R77); `none` is an absent token. -/
def literalOperand : Option Token → Literal
  | none => .bad
  | some t =>
    match number t with
    | some i => .lit i
    | none => .bad

/-! ## Level T: labels and targets -/

/-- The index of a label (30_encoding.md R72): names are compared exactly. -/
def lookupLabel (k : Token) : LabelTable → Option Nat
  | [] => none
  | (name, index) :: rest => if name = k then some index else lookupLabel k rest

/-- Resolution of a target token (30_encoding.md R78): label, then literal index; `-` and digits have no
meaning and give `none` (R94 (a)); anything else is unresolved. -/
def resolveTarget (lt : LabelTable) (k : Token) : Option Target :=
  match lookupLabel k lt with
  | some t => some (.resolved t)
  | none =>
    match decimal k with
    | some t => some (.resolved t)
    | none =>
      match negativeDecimal k with
      | some _ => none
      | none => some .unresolved

/-! ## Level T: decode -/

/-- The twelve command tokens (30_encoding.md R74). -/
def commandTable : List (Token × Command) :=
  [ (['N', 'O', 'O', 'P'], .noop), (['A', 'D', 'D'], .add), (['S', 'U', 'B'], .sub),
    (['O', 'R'], .or), (['X', 'O', 'R'], .xor), (['A', 'N', 'D'], .and), (['N', 'O', 'T'], .not),
    (['R', 'S', 'H'], .rsh), (['I', 'M', 'M'], .imm), (['J', 'M', 'P'], .jmp),
    (['R', 'L', 'O', 'D'], .rlod), (['R', 'S', 'T', 'R'], .rstr) ]

/-- The command a token names, after folding to upper case (30_encoding.md R74). -/
def commandOf (t : Token) : Option Command :=
  match commandTable.find? (·.1 == upperToken t) with
  | some row => some row.2
  | none => none

/-- A `JMP` line from its operand tokens (30_encoding.md R79): the tag first, then the presence of the
target, then its resolution. -/
def decodeJump (lt : LabelTable) : List Token → Option Instr
  | [] => some .jmpx
  | tag :: rest =>
    if tag = ['0', '1'] then some .ret
    else if tag = ['0', '0'] then
      match rest with
      | [] => some .jmpx
      | k :: _ =>
        match resolveTarget lt k with
        | some (.resolved t) => some (.jmp t)
        | some .unresolved => some .jmpU
        | none => none
    else if tag = ['1', '0'] then
      match rest with
      | [] => some .jmpx
      | k :: _ =>
        match resolveTarget lt k with
        | some (.resolved t) => some (.call t)
        | some .unresolved => some .callU
        | none => none
    else some .jmpx

/-- The table under 30_encoding.md R74, on the tokens of a line that is neither blank nor a label line;
absent operands are `bad` and further tokens are ignored (R76). -/
def decodeTokens (lt : LabelTable) : List Token → Option Instr
  | [] => some .skip
  | cmd :: ops =>
    match commandOf cmd with
    | none => some .unknown
    | some .noop => some .noop
    | some .add => some (.add (indexOperand ops[0]?) (indexOperand ops[1]?) (indexOperand ops[2]?))
    | some .sub => some (.sub (indexOperand ops[0]?) (indexOperand ops[1]?) (indexOperand ops[2]?))
    | some .or => some (.or (indexOperand ops[0]?) (indexOperand ops[1]?) (indexOperand ops[2]?))
    | some .xor => some (.xor (indexOperand ops[0]?) (indexOperand ops[1]?) (indexOperand ops[2]?))
    | some .and => some (.and (indexOperand ops[0]?) (indexOperand ops[1]?) (indexOperand ops[2]?))
    | some .not => some (.not (indexOperand ops[0]?))
    | some .rsh => some (.rsh (indexOperand ops[0]?) (indexOperand ops[1]?))
    | some .imm => some (.imm (indexOperand ops[0]?) (literalOperand ops[1]?))
    | some .jmp => decodeJump lt ops
    | some .rlod => some (.rlod (indexOperand ops[0]?) (indexOperand ops[1]?))
    | some .rstr => some (.rstr (indexOperand ops[0]?) (indexOperand ops[1]?))

/-- `DecodeT(line, LT)` (30_encoding.md R76): blank and label lines are SKIP, anything else goes by its
tokens. `none` is a line with no meaning (R94 (a)). -/
def decodeT (lt : LabelTable) (l : Line) : Option Instr :=
  match trim l with
  | [] => some .skip
  | c :: cs => if c = '.' then some .skip else decodeTokens lt (tokens (c :: cs))

end Sys2Proof
end

