-- ==== Sys2Proof/Machine/Fetch.lean ====
section
/-! DEFINITION. The program store: its length, the fetch at an index with its decode (40_sequencer.md R113),
and placing one word in it (for `State.withFetchWord`). -/

namespace Sys2Proof.Machine

/-- `len(P)`: the number of program entries (20_memory.md R50). -/
def imageLength : Image → Nat
  | .words P => P.length
  | .text lines _ => lines.length

/-- What a fetch finds. -/
inductive Fetched where
  /-- `pc ≥ len(P)`: nothing is fetched (40_sequencer.md R113). -/
  | pastEnd
  /-- A Level T line that has no meaning (30_encoding.md R94 (a)). -/
  | noMeaning
  /-- An entry and its decoded instruction. -/
  | entry (i : Instr)
  deriving DecidableEq, Repr

/-- `Decode(P[n])`, DecodeW at Level W and DecodeT at Level T (40_sequencer.md R113). -/
def fetch (im : Image) (n : Nat) : Fetched :=
  match im with
  | .words P =>
    match P[n]? with
    | none => .pastEnd
    | some w => .entry (decodeW w)
  | .text lines lt =>
    match lines[n]? with
    | none => .pastEnd
    | some l =>
      match decodeT lt l with
      | some i => .entry i
      | none => .noMeaning

/-- Whether some line of a program has no meaning (30_encoding.md R94 (a)). -/
def hasMeaninglessLine (lt : LabelTable) (lines : List Line) : Bool :=
  lines.any fun l => decodeT lt l == none

/-- Why `start` refuses an image (30_encoding.md R94, R96); `none` when it does not. -/
def imageRefusal : Image → Option Refusal
  | .words P => if P.length ≤ Config.progLenMax then none else some .programTooLong
  | .text lines lt => if hasMeaninglessLine lt lines then some .negativeTarget else none

/-- A word list that holds `w` at index `n`: what stands at the other indices stays, and indices before `n`
that do not exist are filled with SKIP. -/
def placeWord (w : Word) : Nat → List Word → List Word
  | 0, [] => [w]
  | 0, _ :: rest => w :: rest
  | n + 1, [] => 0#32 :: placeWord w n []
  | n + 1, v :: rest => v :: placeWord w n rest

/-- The words of an image; a Level T image has none. -/
def imageWords : Image → List Word
  | .words P => P
  | .text _ _ => []

end Sys2Proof.Machine
end

