-- ==== Sys2Proof/Machine/Step.lean ====
section
/-! DEFINITION. One `tick` (40_sequencer.md R112, R113), and the placing of one instruction where the next
tick fetches it. -/

namespace Sys2Proof.Machine

/-- One due `tick` (40_sequencer.md R112, R113). A core that is not running does nothing. A running core whose
pc is past the end halts; otherwise it executes the entry at the pc, whose rule sets the next pc. -/
def step (s : State) : Host.Outcome State Fault Refusal :=
  match s.run with
  | .idle => .next s.idleTick
  | .halted => .next s.idleTick
  | .running =>
    match fetch s.image s.pc with
    | .pastEnd => .next s.finishProgram
    | .noMeaning => .refused .negativeTarget
    | .entry i => exec i s.beginEntry

/-- The state with the low `nbits` bits of `w` as the entry at the pc of a running core, so that the next
`step` executes it. It stands for `start`, the only thing that loads a program (40_sequencer.md R110). -/
def State.withFetchWord (s : State) (nbits w : Nat) : State :=
  (s.setImage (.words (placeWord (BitVec.ofNat 32 (w % 2 ^ nbits)) s.pc (imageWords s.image)))).setRun
    .running

end Sys2Proof.Machine
end

