-- ==== Sys2Proof/Machine/Toolchain.lean ====
section
/-! DEFINITION. The toolchain at its interface (00_scope.md R4): from source text to the program image, at
Level T (`parse`, 30_encoding.md R70 to R72) and at Level W (`assemble`, R90 to R96). -/

namespace Sys2Proof.Machine

/-- The lines of a text, `cur` being the part already read of the current line. -/
def splitLinesFrom (cur : Line) : List Char → List Line
  | [] => [cur]
  | c :: cs => if c = '\n' then cur :: splitLinesFrom [] cs else splitLinesFrom (cur ++ [c]) cs

/-- The text cut at every line feed; a final line feed yields a last empty line (30_encoding.md R70). -/
def splitLines (src : List Char) : List Line := splitLinesFrom [] src

/-- A declaration added to the Label Table: a duplicate overwrites the earlier mapping
(30_encoding.md R72). -/
def declareLabel (name : Token) (index : Nat) : LabelTable → LabelTable
  | [] => [(name, index)]
  | (k, i) :: rest =>
    if k = name then (k, index) :: rest else (k, i) :: declareLabel name index rest

/-- The Label Table of lines whose first has index `n`, added to `lt` (30_encoding.md R71, R72). -/
def labelsFrom (n : Nat) (lt : LabelTable) : List Line → LabelTable
  | [] => lt
  | l :: ls =>
    match labelName l with
    | some name => labelsFrom (n + 1) (declareLabel name n lt) ls
    | none => labelsFrom (n + 1) lt ls

/-- The Label Table of a program, built before execution begins (30_encoding.md R72). -/
def labelTable (lines : List Line) : LabelTable := labelsFrom 0 [] lines

/-- `parse(sourceText) -> (Program, LabelTable)` as a Level T image (30_encoding.md R70). -/
def parse (src : List Char) : Image := .text (splitLines src) (labelTable (splitLines src))

/-- `Asm(line, LT)` (30_encoding.md R90): `none` is a refusal (R94). -/
def asmLine (lt : LabelTable) (l : Line) : Option Word :=
  match decodeT lt l with
  | some i => asmWord i
  | none => none

/-- The words of a list of lines, in order, or a refusal (30_encoding.md R90, R94). -/
def asmLines (lt : LabelTable) : List Line → Option (List Word)
  | [] => some []
  | l :: ls =>
    match asmLine lt l, asmLines lt ls with
    | some w, some ws => some (w :: ws)
    | _, _ => none

/-- The Level W program of a source text (30_encoding.md R90); a text of more than `Config.progLenMax` lines
is refused whole (R96). -/
def assemble (src : List Char) : Option (List Word) :=
  if (splitLines src).length ≤ Config.progLenMax then
    asmLines (labelTable (splitLines src)) (splitLines src)
  else none

end Sys2Proof.Machine
end

