-- ==== Sys2Proof/Machine/Input.lean ====
section
/-! DEFINITION. The four input events (00_scope.md section 5, R6; 40_sequencer.md R110 to R113;
70_reset_and_hazards.md R230), applied one at a time. -/

namespace Sys2Proof.Machine

/-- The input events of the block (00_scope.md section 5). -/
inductive InputEvent where
  | reset
  | start (image : Image)
  | stop
  | tick
  deriving DecidableEq, Repr

/-- `start(image)` of an image that is not refused, in any run state (40_sequencer.md R110): registers and memory
stay, the Call Stack is emptied (decision D19), no event is emitted. -/
def State.load (s : State) (im : Image) : State :=
  ((((s.setImage im).setPc 0).setCallStack []).setRun .running).setEvent .none

/-- `stop` (40_sequencer.md R111): only a running core changes, to Idle. No event is emitted. -/
def State.stop (s : State) : State :=
  match s.run with
  | .running => (s.setRun .idle).setEvent .none
  | .idle => s.setEvent .none
  | .halted => s.setEvent .none

/-- `start(image)`: a program with no meaning in the spec is refused (30_encoding.md R94, R96). -/
def start (im : Image) (s : State) : Host.Outcome State Fault Refusal :=
  match imageRefusal im with
  | some r => .refused r
  | none => .next (s.load im)

/-- One input event applied to the whole state (00_scope.md R6). -/
def input (e : InputEvent) (s : State) : Host.Outcome State Fault Refusal :=
  match e with
  | .reset => .next State.reset
  | .start im => start im s
  | .stop => .next s.stop
  | .tick => step s

/-- A list of input events applied one at a time (00_scope.md R6). -/
def runInputs : List InputEvent → State → Host.Outcome State Fault Refusal
  | [], s => .next s
  | e :: es, s =>
    match input e s with
    | .next t => runInputs es t
    | .fault r => .fault r
    | .refused r => .refused r

/-- The source text as the image of a start at Level T (40_sequencer.md R110: the text is read once at `start()`
and parsed). -/
def startText (src : List Char) : InputEvent := .start (parse src)

/-- The events an implementation that samples several inputs in one clock applies, in the order reset, start,
stop, tick (00_scope.md R6, decision D21). -/
def clockInputs (resetIn : Bool) (startIn : Option Image) (stopIn tickIn : Bool) : List InputEvent :=
  (if resetIn then [.reset] else []) ++
  ((match startIn with | some im => [.start im] | none => []) ++
  ((if stopIn then [.stop] else []) ++ (if tickIn then [.tick] else [])))

end Sys2Proof.Machine
end

