-- ==== Sys2Proof/Machine/Outputs.lean ====
section
/-! DEFINITION. The outputs of the block (00_scope.md section 5, 40_sequencer.md R116, 60_exceptions.md R203). The
pc and the Call Stack are on no output but the fetch index.

R116 speaks of the outputs after a due tick only. That they are functions of every state, and so also show a state that
no tick has left yet (after `reset`, `start` or `stop`), is the model's choice: DESIGN CHOICE, log 31. -/

namespace Sys2Proof.Machine

/-- `reg_dump`: the 8 registers, indexed, as the last due tick left them (40_sequencer.md R116). In a state that no tick
has left, the spec leaves the output open and the model shows the registers of that state: DESIGN CHOICE, log 31. -/
def State.regDump (s : State) : List Byte := (List.finRange 8).map s.readReg

/-- `mem_dump`: the 16 memory cells, indexed, as the last due tick left them (40_sequencer.md R116). In a state that no
tick has left, the spec leaves the output open and the model shows the cells of that state: DESIGN CHOICE, log 31. -/
def State.memDump (s : State) : List Byte := (List.finRange 16).map s.memRead

/-- `run_state` (10_state.md R29, 40_sequencer.md R116), shown in every state: DESIGN CHOICE between ticks, log 31. -/
def State.runState (s : State) : RunState := s.run

/-- `fetch_index`: the pc presented to the instruction store (00_scope.md section 5). -/
def State.fetchIndex (s : State) : Nat := s.pc

/-- `fetch_word`: the word the store returns at Level W, when there is one (00_scope.md section 5). -/
def State.fetchWord (s : State) : Option Word := (imageWords s.image)[s.pc]?

/-- The line the store returns at Level T in place of a word, when there is one (00_scope.md section 5). -/
def State.fetchLine (s : State) : Option Line :=
  match s.image with
  | .words _ => none
  | .text lines _ => lines[s.pc]?

/-- `len(P)`, which the instruction store supplies (00_scope.md section 5). -/
def State.storeLength (s : State) : Nat := imageLength s.image

/-- The 3-bit code of the event output (60_exceptions.md R203). Codes 6 and 7 are never emitted. -/
def Event.code : Event → BitVec 3
  | .none => 0
  | .invalidOperand => 1
  | .unresolvedTarget => 2
  | .unknownInstruction => 3
  | .emptyCallStack => 4
  | .programFinished => 5

end Sys2Proof.Machine
end

