-- ==== Sys2Proof/Safety.lean ====
section
/-! DEFINITION. What counts as a safe state and a safe step, in the terms the statements use: the frames,
what an error does, the table of errors, and the invariant of the machine. -/

namespace Sys2Proof.Machine

/-! ## Frames -/

/-- No register differs. -/
def SameRegisters (s t : State) : Prop := ∀ r : RegIndex, t.readReg r = s.readReg r

/-- No byte of memory differs. -/
def SameMemory (s t : State) : Prop := t.mem = s.mem ∧ ∀ a : CellAddr, t.memRead a = s.memRead a

/-- No register but `r` differs. -/
def SameRegistersBut (r : RegIndex) (s t : State) : Prop :=
  ∀ q : RegIndex, q ≠ r → t.readReg q = s.readReg q

/-- No byte of memory but the one at `a` differs. -/
def SameMemoryBut (a : CellAddr) (s t : State) : Prop :=
  ∀ b : CellAddr, b ≠ a → t.memRead b = s.memRead b

/-- The run state, the program image and the event output are the same. -/
def SameRunImageEvent (s t : State) : Prop := t.run = s.run ∧ t.image = s.image ∧ t.event = s.event

/-- Nothing but register `r` and the pc differs. -/
def OnlyRegister (r : RegIndex) (s t : State) : Prop :=
  SameRegistersBut r s t ∧ SameMemory s t ∧ t.callStack = s.callStack ∧ SameRunImageEvent s t

/-- Nothing but the pc differs. -/
def OnlyPc (s t : State) : Prop :=
  SameRegisters s t ∧ SameMemory s t ∧ t.callStack = s.callStack ∧ SameRunImageEvent s t

/-! ## Errors -/

/-- What a recoverable error of kind `k` does to `s` (60_exceptions.md R204): the event is the kind, the pc
advances by one, and nothing else changes. -/
def Recovers (k : ErrorKind) (s t : State) : Prop :=
  t.event = k.event ∧ t.pc = s.pc + 1 ∧ t.run = s.run ∧ SameRegisters s t ∧ SameMemory s t ∧
    t.callStack = s.callStack ∧ t.image = s.image

/-- What the fatal error does to `s` (60_exceptions.md R205), the pc of the halted state left unsaid
(92_eei_decisions.md D12). -/
def HaltsWith (e : Event) (s t : State) : Prop :=
  t.event = e ∧ t.run = .halted ∧ SameRegisters s t ∧ SameMemory s t ∧
    t.callStack = s.callStack ∧ t.image = s.image

/-- The table of 60_exceptions.md R201: which decoded instruction raises which kind, and when. -/
def raisedKind (i : Instr) (s : State) : Option ErrorKind :=
  match i with
  | .skip => none
  | .noop => none
  | .add a b c => if regOk a && regOk b && regOk c then none else some .invalidOperand
  | .sub a b c => if regOk a && regOk b && regOk c then none else some .invalidOperand
  | .or a b c => if regOk a && regOk b && regOk c then none else some .invalidOperand
  | .xor a b c => if regOk a && regOk b && regOk c then none else some .invalidOperand
  | .and a b c => if regOk a && regOk b && regOk c then none else some .invalidOperand
  | .not a => if regOk a then none else some .invalidOperand
  | .rsh a b => if regOk a && regOk b then none else some .invalidOperand
  | .imm a (.lit _) => if regOk a then none else some .invalidOperand
  | .imm _ .bad => some .invalidOperand
  | .jmp _ => none
  | .jmpU => some .unresolvedTarget
  | .call _ => none
  | .callU => some .unresolvedTarget
  | .ret => if s.callStack = [] then some .emptyCallStack else none
  | .jmpx => some .invalidOperand
  | .rlod a m => if regOk a && memOk m then none else some .invalidOperand
  | .rstr a m => if regOk a && memOk m then none else some .invalidOperand
  | .unknown => some .unknownInstruction

/-- The operand that names the register an instruction writes, if it writes one (10_state.md R23). -/
def destination : Instr → Option Operand
  | .skip => none
  | .noop => none
  | .add _ _ c => some c
  | .sub _ _ c => some c
  | .or _ _ c => some c
  | .xor _ _ c => some c
  | .and _ _ c => some c
  | .not a => some a
  | .rsh _ b => some b
  | .imm a _ => some a
  | .jmp _ => none
  | .jmpU => none
  | .call _ => none
  | .callU => none
  | .ret => none
  | .jmpx => none
  | .rlod a _ => some a
  | .rstr _ _ => none
  | .unknown => none

/-! ## Decoding of the two levels -/

/-- The words that 30_encoding.md R86 calls reserved, by the fields of R81 and R84: a must-be-zero bit set, an
unassigned opcode, or a format J word whose resolved bit and target do not fit its tag. UNKNOWN's own words are
among them. -/
def reservedWord (w : Word) : Bool :=
  let op := (w.extractLsb' 28 4).toNat
  if op = 0 ∨ op = 1 then w.extractLsb' 0 28 != 0
  else if op ≤ 6 ∨ op = 9 then w.extractLsb' 0 4 != 0
  else if op = 7 then w.extractLsb' 0 20 != 0
  else if op = 8 ∨ op = 11 ∨ op = 12 then w.extractLsb' 0 12 != 0
  else if op = 10 then
    w.extractLsb' 20 5 != 0 || w.extractLsb' 0 4 != 0 ||
      (w.extractLsb' 25 1 == 0 && w.extractLsb' 4 16 != 0) ||
      (w.extractLsb' 26 1 == 1 && w.extractLsb' 25 1 == 1)
  else true

/-- The twelve command tokens as 30_encoding.md R74 lists them. -/
def commandTokens : List Token :=
  ["NOOP".toList, "ADD".toList, "SUB".toList, "OR".toList, "XOR".toList, "AND".toList, "NOT".toList,
    "RSH".toList, "IMM".toList, "JMP".toList, "RLOD".toList, "RSTR".toList]

/-- Every line whose command token folds to `name` decodes to what `build` makes of its operand tokens
(30_encoding.md R73, R74, R76). -/
def LineDecodes (name : Token) (build : List Token → Instr) : Prop :=
  ∀ (lt : LabelTable) (l : Line) (cmd : Token) (ops : List Token),
    tokens l = cmd :: ops → upperToken cmd = name → decodeT lt l = some (build ops)

/-- The lines that have no meaning (30_encoding.md R94 (a)), by their tokens: the command `JMP`, the tag `00` or `10`,
and a target that is no label and is spelled as a minus sign followed by decimal digits. -/
def NegativeTargetLine (lt : LabelTable) (l : Line) : Prop :=
  ∃ (cmd tag digits : Token) (rest : List Token) (n : Nat),
    tokens l = cmd :: tag :: ('-' :: digits) :: rest ∧ upperToken cmd = "JMP".toList ∧
    (tag = "00".toList ∨ tag = "10".toList) ∧ lookupLabel ('-' :: digits) lt = none ∧
    decimal digits = some n

/-- Two states agree in everything that decides which entry is executed next (43_control.md R170): the Call Stack,
the pc, the run state, the image, and the event reported. -/
def SameControl (s t : State) : Prop :=
  t.callStack = s.callStack ∧ t.pc = s.pc ∧ t.run = s.run ∧ t.image = s.image ∧ t.event = s.event

/-- `k` ticks in a row. -/
def ticks (k : Nat) (s : State) : Host.Outcome State Fault Refusal :=
  runInputs (List.replicate k .tick) s

/-! ## The invariant -/

/-- The pc is a 16-bit number at Level W (10_state.md R25). -/
def PcFits (s : State) : Prop :=
  match s.image with
  | .words _ => s.pc ≤ 65535
  | .text _ _ => True

/-- The event output and the run state fit together (40_sequencer.md R120, 60_exceptions.md R204, R205): a
recoverable error leaves the core running, the fatal one and the end of the program leave it halted. -/
def EventFits (s : State) : Prop :=
  match s.event with
  | .none => True
  | .invalidOperand => s.run = .running
  | .unresolvedTarget => s.run = .running
  | .unknownInstruction => s.run = .running
  | .emptyCallStack => s.run = .halted ∧ s.callStack = []
  | .programFinished => s.run = .halted

/-- The invariant of the machine: the memory list is canonical, every Call Stack entry is in [1, len(P)]
(10_state.md R28), the image is one that `start` accepts (30_encoding.md R94, R96), the pc fits its range (R25),
and the event output fits the run state. -/
def Invariant (s : State) : Prop :=
  s.mem.wf = true ∧ (∀ e ∈ s.callStack, 1 ≤ e ∧ e ≤ imageLength s.image) ∧
    imageRefusal s.image = none ∧ PcFits s ∧ EventFits s

end Sys2Proof.Machine
end

