-- ==== Sys2Proof/Certificates/Slice0/Obligations.lean ====
section
/-! DEFINITION. The statements for the provers. Each docstring names the rule of spec/ it formalises; one that rests on
a decision of spec/92_eei_decisions.md or on the model's own choice says so. -/

open Sys2Proof Sys2Proof.Machine

/-! ## Words -/

/-- Words of the spec decode as the spec lists them: all stand in spec/95_test_vectors.md section 2.2 but 0x30706050
(SUB), which is VE18 of its section 2.1 and a worked encoding of 30_encoding.md. Level W is the spec's own
construction (decisions D1 to D7; log 11). -/
def Obligations.SampleWordsDecodeAsListed : Prop :=
  decodeW 0x00000000#32 = .skip ∧ decodeW 0x10000000#32 = .noop ∧
  decodeW 0x20001020#32 = .add (.num 0) (.num 1) (.num 2) ∧
  decodeW 0x30706050#32 = .sub (.num 7) (.num 6) (.num 5) ∧
  decodeW 0x70400000#32 = .not (.num 4) ∧ decodeW 0x80203000#32 = .rsh (.num 2) (.num 3) ∧
  decodeW 0x90712340#32 = .imm (.num 7) (.lit 0x1234) ∧
  decodeW 0xA20FFFF0#32 = .jmp 65535 ∧ decodeW 0xAA000050#32 = .call 5 ∧
  decodeW 0xA4000000#32 = .ret ∧ decodeW 0xAC000000#32 = .jmpx ∧
  decodeW 0xB0110000#32 = .rlod (.num 1) (.num 16) ∧
  decodeW 0xC0003000#32 = .rstr (.num 0) (.num 3) ∧
  decodeW 0xA3000070#32 = .unknown ∧ decodeW 0xA6000000#32 = .unknown ∧
  decodeW 0xE1234567#32 = .unknown

/-- Decode and encode agree: every instruction a word can hold, with every operand at every value its field
admits, is read back from its word. Level W is the spec's own construction (decisions D1 to D7; log 11). -/
def Obligations.DecodeOfEncodeIsTheInstruction : Prop :=
  ∀ i : Instr, i.wf = true → decodeW (encode i) = i

/-- The other direction: a word that does not decode to UNKNOWN is the encoding of what it decodes to, so no bit of it
is dropped (decision D7; log 11). -/
def Obligations.EncodeOfDecodeIsTheWord : Prop :=
  ∀ w : Word, decodeW w ≠ .unknown → encode (decodeW w) = w

/-- At Level W no operand is `bad`, every operand number is at most 255, every literal is in [0, 65535] and every target
at most 65535 (the last sentence of R75; decisions D1 to D7; log 11). -/
def Obligations.EveryWordDecodesToAWellFormedInstruction : Prop :=
  ∀ w : Word, (decodeW w).wf = true

/-- The rows above the last of the table of R85 are pairwise disjoint (decisions D2, D7; log 11). -/
def Obligations.DecodeRowsArePairwiseDisjoint : Prop :=
  ∀ w : Word, decodeTable.Pairwise fun r q => (r.matchesWord w && q.matchesWord w) = false

/-- The words that decode to UNKNOWN are exactly the reserved ones, said by fields (R86; decision D7; log 11). -/
def Obligations.ReservedWordsAreExactlyTheUnknownOnes : Prop :=
  ∀ w : Word, decodeW w = .unknown ↔ reservedWord w = true

/-! ## The sequencer -/

/-- A tick of a running core whose pc is below the length of its program executes the decoded entry at the pc, on the
state with the event output at its default: DecodeW of the word at Level W, DecodeT of the line at Level T. What a tick
adds around `exec` is this default and nothing else. (R113's other branch is `EndOfProgramHaltsTheRun`.) -/
def Obligations.StepExecutesTheEntryAtThePc : Prop :=
  (∀ (s : State) (P : List Word) (w : Word),
    s.run = .running → s.image = .words P → P[s.pc]? = some w →
    step s = exec (decodeW w) s.beginEntry) ∧
  (∀ (s : State) (P : List Word) (i : Instr),
    s.run = .running → s.image = .words P → i.wf = true → P[s.pc]? = some (encode i) →
    step s = exec i s.beginEntry) ∧
  (∀ (s : State) (lines : List Line) (lt : LabelTable) (l : Line) (i : Instr),
    s.run = .running → s.image = .text lines lt → lines[s.pc]? = some l → decodeT lt l = some i →
    step s = exec i s.beginEntry)

/-- A running tick that finds the pc at or past the end halts the run and reports `ProgramFinished`; registers, memory,
Call Stack and program stay. The pc of the halted state is left unsaid (decision D12; log 7). -/
def Obligations.EndOfProgramHaltsTheRun : Prop :=
  ∀ s : State, s.run = .running → imageLength s.image ≤ s.pc →
    ∃ t, step s = .next t ∧ HaltsWith .programFinished s t

/-- R112: ticks of a core that is Idle or Halted change nothing and report no event, however many come and whatever
the program image is. -/
def Obligations.TicksOfAStoppedCoreChangeNothing : Prop :=
  ∀ (k : Nat) (s : State), s.run ≠ .running →
    ticks (k + 1) s = .next (s.setEvent .none) ∧ ∀ im : Image,
      ticks (k + 1) (s.setImage im) = .next ((s.setImage im).setEvent .none)

/-- The transitions of the run state, all of them (the table of R120). `reset` to Idle and `stop` of a Halted core rest
on the spec's decisions D13 and D20 (log 4, log 10); `start` is of an image that R94 and R96 do not refuse (for the
others see `StartRefusesOnlyWhatTheSpecRefuses`). -/
def Obligations.RunStateTransitionsAreTheListedOnes : Prop :=
  (∀ s : State, ∃ t, input .reset s = .next t ∧ t.run = .idle) ∧
  (∀ (s : State) (im : Image), imageRefusal im = none →
    ∃ t, input (.start im) s = .next t ∧ t.run = .running) ∧
  (∀ s : State, ∃ t, input .stop s = .next t ∧
    t.run = if s.run = .running then .idle else s.run) ∧
  (∀ s : State, s.run ≠ .running → ∃ t, input .tick s = .next t ∧ t.run = s.run) ∧
  (∀ s : State, s.run = .running → imageLength s.image ≤ s.pc →
    ∃ t, input .tick s = .next t ∧ t.run = .halted) ∧
  (∀ (s : State) (i : Instr), s.run = .running → fetch s.image s.pc = .entry i →
    ∃ t, input .tick s = .next t ∧
      t.run = if i = .noop ∨ (i = .ret ∧ s.callStack = []) then .halted else .running)

/-- `start` of a program and then one tick executes the program's entry at index 0, and nothing before it
(R110, R113). -/
def Obligations.FirstTickAfterStartExecutesIndexZero : Prop :=
  ∀ (w : Word) (P : List Word) (s : State), (w :: P).length ≤ 65535 →
    ∃ u, input (.start (.words (w :: P))) s = .next u ∧ step u = exec (decodeW w) u

/-- `start` in any run state: the image is replaced, the pc is 0, the run is Running, registers and memory are kept, no
event. That it empties the Call Stack is the spec's decision D19 (90_conflicts.md C4; log 9). -/
def Obligations.StartKeepsRegistersAndMemory : Prop :=
  ∀ (s : State) (im : Image), imageRefusal im = none →
    ∃ t, input (.start im) s = .next t ∧ t.image = im ∧ t.pc = 0 ∧ t.callStack = [] ∧
      t.run = .running ∧ SameRegisters s t ∧ SameMemory s t ∧ t.event = .none

/-- `start` refuses a Level W image of more than 65535 words and a Level T program with a line of R94 (a), said by its
tokens, and nothing else (R94, R96, decision D6; log 14, log 15). -/
def Obligations.StartRefusesOnlyWhatTheSpecRefuses : Prop :=
  (∀ (P : List Word) (s : State), 65535 < P.length →
    input (.start (.words P)) s = .refused .programTooLong) ∧
  (∀ (P : List Word) (s : State), P.length ≤ 65535 → ∃ t, input (.start (.words P)) s = .next t) ∧
  (∀ (lines : List Line) (lt : LabelTable) (s : State), (∃ l ∈ lines, NegativeTargetLine lt l) →
    input (.start (.text lines lt)) s = .refused .negativeTarget) ∧
  (∀ (lines : List Line) (lt : LabelTable) (s : State), (∀ l ∈ lines, ¬ NegativeTargetLine lt l) →
    ∃ t, input (.start (.text lines lt)) s = .next t)

/-- `stop`: a running core goes Idle, any other stays; pc, registers, memory, Call Stack and image are unchanged and no
event is emitted (R111; that a Halted core stays Halted is decision D20; log 10). -/
def Obligations.StopOnlyIdlesARunningCore : Prop :=
  ∀ s : State, ∃ t, input .stop s = .next t ∧
    (s.run = .running → t.run = .idle) ∧ (s.run = .idle → t.run = .idle) ∧
    (s.run = .halted → t.run = .halted) ∧ t.pc = s.pc ∧ SameRegisters s t ∧ SameMemory s t ∧
    t.callStack = s.callStack ∧ t.image = s.image ∧ t.event = .none

/-- `reset`, in any state: all registers and memory cells read 0 and the Call Stack is empty. That pc = 0, run = Idle and
the image is empty is the spec's decision D13 (log 4). -/
def Obligations.ResetClearsEverything : Prop :=
  ∀ s : State, ∃ t, input .reset s = .next t ∧ t = State.reset ∧
    (∀ r : RegIndex, t.readReg r = 0) ∧ (∀ a : CellAddr, t.memRead a = 0) ∧ t.callStack = [] ∧
    t.pc = 0 ∧ t.run = .idle ∧ imageLength t.image = 0 ∧ t.event = .none

/-! ## SKIP, NOOP, UNKNOWN -/

/-- SKIP only advances the pc, and blank lines and label lines are SKIP (R117). That label lines report nothing is the
spec's decision D11 (90_conflicts.md C3; log 19). -/
def Obligations.SkipOnlyAdvancesThePc : Prop :=
  (∀ s : State, ∃ t, exec .skip s = .next t ∧ t.pc = s.pc + 1 ∧ OnlyPc s t) ∧
  decodeW 0x00000000#32 = .skip ∧
  (∀ (lt : LabelTable) (l : Line), tokens l = [] → decodeT lt l = some .skip) ∧
  (∀ (lt : LabelTable) (l : Line) (name : Token) (rest : List Token),
    tokens l = ('.' :: name) :: rest → decodeT lt l = some .skip)

/-- NOOP halts the run and changes nothing else that a program or an output shows (R119). Its event `none` is decision
D23 (log 20), said here as: `exec` leaves the default that the tick has set; the pc of the halted state is left unsaid
(decision D12; log 7). -/
def Obligations.NoopHaltsTheRun : Prop :=
  (∀ s : State, ∃ t, exec .noop s = .next t ∧ HaltsWith s.event s t) ∧
  decodeW 0x10000000#32 = .noop ∧ LineDecodes "NOOP".toList (fun _ => .noop)

/-- R118: UNKNOWN always raises `UnknownInstruction`; it is what every line decodes to that is neither blank nor a label
line and whose command token is none of the twelve, and every word that matches no other row. -/
def Obligations.UnknownReportsAndGoesOn : Prop :=
  (∀ s : State, ∃ t, exec .unknown s = .next t ∧ Recovers .unknownInstruction s t) ∧
  (∀ (lt : LabelTable) (l : Line) (cmd : Token) (ops : List Token), tokens l = cmd :: ops →
    cmd.head? ≠ some '.' → upperToken cmd ∉ commandTokens → decodeT lt l = some .unknown) ∧
  (∀ w : Word, (∀ r ∈ decodeTable, r.matchesWord w = false) → decodeW w = .unknown) ∧
  decodeW 0xF0000000#32 = .unknown

/-! ## Arithmetic and logic -/

/-- R141: ADD, on every operand: the sum modulo 256 for three register indices, `InvalidOperand` otherwise; its word and
its line. -/
def Obligations.AddWritesTheSumMod256 : Prop :=
  (∀ (a b c : RegIndex) (s : State), ∃ t,
    exec (.add (.num a) (.num b) (.num c)) s = .next t ∧
    (t.readReg c).toNat = ((s.readReg b).toNat + (s.readReg a).toNat) % 256 ∧
    t.pc = s.pc + 1 ∧ OnlyRegister c s t) ∧
  (∀ (a b c : Operand) (s : State), (regOk a && regOk b && regOk c) = false →
    ∃ t, exec (.add a b c) s = .next t ∧ Recovers .invalidOperand s t) ∧
  (∀ a b c : BitVec 8,
    decodeW (wordR3 0x2#4 a b c) = .add (.num a.toNat) (.num b.toNat) (.num c.toNat)) ∧
  LineDecodes "ADD".toList fun ops =>
    .add (indexOperand ops[0]?) (indexOperand ops[1]?) (indexOperand ops[2]?)

/-- R142: SUB, on every operand: the second operand's register less the first's, modulo 256. -/
def Obligations.SubWritesTheDifferenceMod256 : Prop :=
  (∀ (a b c : RegIndex) (s : State), ∃ t,
    exec (.sub (.num a) (.num b) (.num c)) s = .next t ∧
    ((t.readReg c).toNat : Int) = ((s.readReg b).toNat - (s.readReg a).toNat : Int) % 256 ∧
    t.pc = s.pc + 1 ∧ OnlyRegister c s t) ∧
  (∀ (a b c : Operand) (s : State), (regOk a && regOk b && regOk c) = false →
    ∃ t, exec (.sub a b c) s = .next t ∧ Recovers .invalidOperand s t) ∧
  (∀ a b c : BitVec 8,
    decodeW (wordR3 0x3#4 a b c) = .sub (.num a.toNat) (.num b.toNat) (.num c.toNat)) ∧
  LineDecodes "SUB".toList fun ops =>
    .sub (indexOperand ops[0]?) (indexOperand ops[1]?) (indexOperand ops[2]?)

/-- R143: OR, on every operand, bit by bit. -/
def Obligations.OrWritesTheBitwiseOr : Prop :=
  (∀ (a b c : RegIndex) (s : State), ∃ t,
    exec (.or (.num a) (.num b) (.num c)) s = .next t ∧
    (∀ k : Nat, (t.readReg c).getLsbD k = ((s.readReg a).getLsbD k || (s.readReg b).getLsbD k)) ∧
    t.pc = s.pc + 1 ∧ OnlyRegister c s t) ∧
  (∀ (a b c : Operand) (s : State), (regOk a && regOk b && regOk c) = false →
    ∃ t, exec (.or a b c) s = .next t ∧ Recovers .invalidOperand s t) ∧
  (∀ a b c : BitVec 8,
    decodeW (wordR3 0x4#4 a b c) = .or (.num a.toNat) (.num b.toNat) (.num c.toNat)) ∧
  LineDecodes "OR".toList fun ops =>
    .or (indexOperand ops[0]?) (indexOperand ops[1]?) (indexOperand ops[2]?)

/-- R144: XOR, on every operand, bit by bit. -/
def Obligations.XorWritesTheBitwiseExclusiveOr : Prop :=
  (∀ (a b c : RegIndex) (s : State), ∃ t,
    exec (.xor (.num a) (.num b) (.num c)) s = .next t ∧
    (∀ k : Nat,
      (t.readReg c).getLsbD k = ((s.readReg a).getLsbD k ^^ (s.readReg b).getLsbD k)) ∧
    t.pc = s.pc + 1 ∧ OnlyRegister c s t) ∧
  (∀ (a b c : Operand) (s : State), (regOk a && regOk b && regOk c) = false →
    ∃ t, exec (.xor a b c) s = .next t ∧ Recovers .invalidOperand s t) ∧
  (∀ a b c : BitVec 8,
    decodeW (wordR3 0x5#4 a b c) = .xor (.num a.toNat) (.num b.toNat) (.num c.toNat)) ∧
  LineDecodes "XOR".toList fun ops =>
    .xor (indexOperand ops[0]?) (indexOperand ops[1]?) (indexOperand ops[2]?)

/-- R145: AND, on every operand, bit by bit. -/
def Obligations.AndWritesTheBitwiseAnd : Prop :=
  (∀ (a b c : RegIndex) (s : State), ∃ t,
    exec (.and (.num a) (.num b) (.num c)) s = .next t ∧
    (∀ k : Nat, (t.readReg c).getLsbD k = ((s.readReg a).getLsbD k && (s.readReg b).getLsbD k)) ∧
    t.pc = s.pc + 1 ∧ OnlyRegister c s t) ∧
  (∀ (a b c : Operand) (s : State), (regOk a && regOk b && regOk c) = false →
    ∃ t, exec (.and a b c) s = .next t ∧ Recovers .invalidOperand s t) ∧
  (∀ a b c : BitVec 8,
    decodeW (wordR3 0x6#4 a b c) = .and (.num a.toNat) (.num b.toNat) (.num c.toNat)) ∧
  LineDecodes "AND".toList fun ops =>
    .and (indexOperand ops[0]?) (indexOperand ops[1]?) (indexOperand ops[2]?)

/-- R146: NOT, on every operand: 255 less the register's value. -/
def Obligations.NotWritesTheComplement : Prop :=
  (∀ (a : RegIndex) (s : State), ∃ t,
    exec (.not (.num a)) s = .next t ∧ (t.readReg a).toNat = 255 - (s.readReg a).toNat ∧
    t.pc = s.pc + 1 ∧ OnlyRegister a s t) ∧
  (∀ (a : Operand) (s : State), regOk a = false →
    ∃ t, exec (.not a) s = .next t ∧ Recovers .invalidOperand s t) ∧
  (∀ a : BitVec 8, decodeW (wordR1 0x7#4 a) = .not (.num a.toNat)) ∧
  LineDecodes "NOT".toList fun ops => .not (indexOperand ops[0]?)

/-- R147: RSH, on every operand: half the source, rounded down. -/
def Obligations.RshWritesTheHalf : Prop :=
  (∀ (a b : RegIndex) (s : State), ∃ t,
    exec (.rsh (.num a) (.num b)) s = .next t ∧ (t.readReg b).toNat = (s.readReg a).toNat / 2 ∧
    t.pc = s.pc + 1 ∧ OnlyRegister b s t) ∧
  (∀ (a b : Operand) (s : State), (regOk a && regOk b) = false →
    ∃ t, exec (.rsh a b) s = .next t ∧ Recovers .invalidOperand s t) ∧
  (∀ a b : BitVec 8, decodeW (wordR2 0x8#4 a b) = .rsh (.num a.toNat) (.num b.toNat)) ∧
  LineDecodes "RSH".toList fun ops => .rsh (indexOperand ops[0]?) (indexOperand ops[1]?)

/-- R160, R161: IMM, on every operand: the literal modulo 256, every other register and every memory cell unchanged;
`InvalidOperand` for a bad register or a bad literal. -/
def Obligations.ImmWritesTheLiteralMod256 : Prop :=
  (∀ (a : RegIndex) (i : Int) (s : State), ∃ t,
    exec (.imm (.num a) (.lit i)) s = .next t ∧ ((t.readReg a).toNat : Int) = i % 256 ∧
    t.pc = s.pc + 1 ∧ OnlyRegister a s t) ∧
  (∀ (a : Operand) (v : Literal) (s : State), regOk a = false ∨ v = .bad →
    ∃ t, exec (.imm a v) s = .next t ∧ Recovers .invalidOperand s t) ∧
  (∀ (a : BitVec 8) (v : BitVec 16),
    decodeW (wordI 0x9#4 a v) = .imm (.num a.toNat) (.lit v.toNat)) ∧
  (∀ (lt : LabelTable) (l : Line) (cmd : Token) (ops : List Token),
    tokens l = cmd :: ops → upperToken cmd = "IMM".toList →
    (literalOperand ops[1]? = .bad → asmLine lt l = some 0x9FF00000#32) ∧
    (∀ i, literalOperand ops[1]? = .lit i → i < -32768 ∨ 65535 < i → asmLine lt l = none)) ∧
  LineDecodes "IMM".toList fun ops => .imm (indexOperand ops[0]?) (literalOperand ops[1]?)

/-! ## Control transfer -/

/-- R172: JMP with a resolved target sets the pc to it exactly; with an unresolved one it reports `UnresolvedTarget` and
goes on. Words of both forms, and lines by the order of R78. -/
def Obligations.JmpSetsThePcExactly : Prop :=
  (∀ (g : Nat) (s : State), ∃ t, exec (.jmp g) s = .next t ∧ t.pc = g ∧ OnlyPc s t) ∧
  (∀ s : State, ∃ t, exec .jmpU s = .next t ∧ Recovers .unresolvedTarget s t) ∧
  (∀ g : BitVec 16, decodeW (0xA2000000#32 ||| g.setWidth 32 <<< 4) = .jmp g.toNat) ∧
  decodeW 0xA0000000#32 = .jmpU ∧
  (∀ (lt : LabelTable) (l : Line) (cmd k : Token) (rest : List Token),
    tokens l = cmd :: "00".toList :: k :: rest → upperToken cmd = "JMP".toList →
    (∀ g, lookupLabel k lt = some g → decodeT lt l = some (.jmp g)) ∧
    (∀ g, lookupLabel k lt = none → decimal k = some g → decodeT lt l = some (.jmp g)) ∧
    (lookupLabel k lt = none → number k = none → decodeT lt l = some .jmpU))

/-- R173: CALL with a resolved target pushes the index after it and jumps; with an unresolved one it reports
`UnresolvedTarget` and pushes nothing (decision D9; log 17). Words of both forms, and lines by the order of R78. -/
def Obligations.CallPushesTheNextIndexAndJumps : Prop :=
  (∀ (g : Nat) (s : State), ∃ t, exec (.call g) s = .next t ∧ t.pc = g ∧
    t.callStack = (s.pc + 1) :: s.callStack ∧ SameRegisters s t ∧ SameMemory s t ∧
    SameRunImageEvent s t) ∧
  (∀ s : State, ∃ t, exec .callU s = .next t ∧ Recovers .unresolvedTarget s t) ∧
  (∀ g : BitVec 16, decodeW (0xAA000000#32 ||| g.setWidth 32 <<< 4) = .call g.toNat) ∧
  decodeW 0xA8000000#32 = .callU ∧
  (∀ (lt : LabelTable) (l : Line) (cmd k : Token) (rest : List Token),
    tokens l = cmd :: "10".toList :: k :: rest → upperToken cmd = "JMP".toList →
    (∀ g, lookupLabel k lt = some g → decodeT lt l = some (.call g)) ∧
    (∀ g, lookupLabel k lt = none → decimal k = some g → decodeT lt l = some (.call g)) ∧
    (lookupLabel k lt = none → number k = none → decodeT lt l = some .callU))

/-- R174: RET pops the Call Stack into the pc; on an empty one it is the fatal error, which halts the run and writes
nothing. The pc of the halted state is left unsaid (decision D12; log 7). -/
def Obligations.RetPopsTheCallStackOrHalts : Prop :=
  (∀ (s : State) (g : Nat) (rest : List Nat), s.callStack = g :: rest →
    ∃ t, exec .ret s = .next t ∧ t.pc = g ∧ t.callStack = rest ∧ SameRegisters s t ∧
      SameMemory s t ∧ SameRunImageEvent s t) ∧
  (∀ s : State, s.callStack = [] → ∃ t, exec .ret s = .next t ∧ HaltsWith .emptyCallStack s t) ∧
  decodeW 0xA4000000#32 = .ret ∧
  (∀ (lt : LabelTable) (l : Line) (cmd : Token) (rest : List Token),
    tokens l = cmd :: "01".toList :: rest → upperToken cmd = "JMP".toList →
    decodeT lt l = some .ret)

/-- R175: JMPX always raises `InvalidOperand`, and a `JMP` line with no tag, another tag, or a tag `00` or `10` and no
target is JMPX. That an unlisted tag reports this kind is the spec's decision D8 (log 16). -/
def Obligations.JmpxReportsInvalidOperand : Prop :=
  (∀ s : State, ∃ t, exec .jmpx s = .next t ∧ Recovers .invalidOperand s t) ∧
  decodeW 0xAC000000#32 = .jmpx ∧
  (∀ (lt : LabelTable) (l : Line) (cmd : Token) (ops : List Token),
    tokens l = cmd :: ops → upperToken cmd = "JMP".toList →
    (ops = [] → decodeT lt l = some .jmpx) ∧
    (ops = ["00".toList] ∨ ops = ["10".toList] → decodeT lt l = some .jmpx) ∧
    (∀ tag rest, ops = tag :: rest → tag ≠ "00".toList → tag ≠ "10".toList → tag ≠ "01".toList →
      decodeT lt l = some .jmpx))

/-! ## Load and store -/

/-- R191: RLOD, on every operand: the register holds the cell's byte and memory is unchanged. -/
def Obligations.RlodLoadsTheCell : Prop :=
  (∀ (a : RegIndex) (m : CellAddr) (s : State), ∃ t,
    exec (.rlod (.num a) (.num m)) s = .next t ∧ t.readReg a = s.memRead m ∧
    t.pc = s.pc + 1 ∧ OnlyRegister a s t) ∧
  (∀ (a m : Operand) (s : State), (regOk a && memOk m) = false →
    ∃ t, exec (.rlod a m) s = .next t ∧ Recovers .invalidOperand s t) ∧
  (∀ a m : BitVec 8, decodeW (wordR2 0xB#4 a m) = .rlod (.num a.toNat) (.num m.toNat)) ∧
  LineDecodes "RLOD".toList fun ops => .rlod (indexOperand ops[0]?) (indexOperand ops[1]?)

/-- R192: RSTR, on every operand: exactly one cell changes, to the register's value, and no register. The premise is the
memory's canonical form, which `StepKeepsTheInvariant` says every step keeps. -/
def Obligations.RstrStoresTheRegister : Prop :=
  (∀ (a : RegIndex) (m : CellAddr) (s : State), s.mem.wf = true → ∃ t,
    exec (.rstr (.num a) (.num m)) s = .next t ∧ t.memRead m = s.readReg a ∧
    SameMemoryBut m s t ∧ SameRegisters s t ∧ t.callStack = s.callStack ∧ SameRunImageEvent s t ∧
    t.pc = s.pc + 1) ∧
  (∀ (a m : Operand) (s : State), (regOk a && memOk m) = false →
    ∃ t, exec (.rstr a m) s = .next t ∧ Recovers .invalidOperand s t) ∧
  (∀ a m : BitVec 8, decodeW (wordR2 0xC#4 a m) = .rstr (.num a.toNat) (.num m.toNat)) ∧
  LineDecodes "RSTR".toList fun ops => .rstr (indexOperand ops[0]?) (indexOperand ops[1]?)

/-- R56: an address of 16 or more, or one that is not a number, raises `InvalidOperand`, whatever the register operand
is; addresses do not wrap. -/
def Obligations.OutOfRangeAddressesAreOperandErrors : Prop :=
  (∀ (a m : Operand) (s : State), memOk m = false →
    (∃ t, exec (.rlod a m) s = .next t ∧ Recovers .invalidOperand s t) ∧
    (∃ t, exec (.rstr a m) s = .next t ∧ Recovers .invalidOperand s t)) ∧
  (∀ n : Nat, memOk (.num n) = false ↔ 16 ≤ n) ∧ memOk .bad = false

/-! ## Errors and frames, over all instructions -/

/-- R201, R204: every decoded instruction in every state raises exactly the error of the table of R201, or none. A
recoverable one changes nothing but the event and the pc, as a SKIP that logged would; the fatal one halts the run. -/
def Obligations.ErrorsAreExactlyTheTable : Prop :=
  ∀ (i : Instr) (s : State),
    (∀ k, raisedKind i s = some k → k ≠ .emptyCallStack →
      ∃ t, exec i s = .next t ∧ Recovers k s t ∧
        ∃ u, exec .skip s = .next u ∧ t = u.setEvent k.event) ∧
    (raisedKind i s = some .emptyCallStack →
      ∃ t, exec i s = .next t ∧ HaltsWith .emptyCallStack s t) ∧
    (raisedKind i s = none → ∃ t, exec i s = .next t ∧ t.event = s.event)

/-- Every decoded instruction in every state has exactly one next state: no encoding traps, faults or stops the model
(93_implementation_defined.md section 3). -/
def Obligations.EveryInstructionAnswersNext : Prop :=
  ∀ (i : Instr) (s : State), ∃ t, exec i s = .next t

/-- The register frame of the whole instruction set (10_state.md section 2): a register that an instruction changes is
the one its destination operand names. -/
def Obligations.OnlyTheDestinationRegisterChanges : Prop :=
  ∀ (i : Instr) (s t : State) (r : RegIndex), exec i s = .next t → t.readReg r ≠ s.readReg r →
    destination i = some (.num r)

/-- The memory and Call Stack frame of the whole instruction set (20_memory.md section 1): a memory change is an RSTR's,
at the cell it names; a Call Stack change is a CALL's or a RET's; the image never changes; and no instruction but RLOD
reads memory. The premise on memory is its canonical form. -/
def Obligations.StorageChangesOnlyByItsOwnInstructions : Prop :=
  (∀ (i : Instr) (s t : State), exec i s = .next t →
    (s.mem.wf = true → ∀ a : CellAddr, t.memRead a ≠ s.memRead a → ∃ o, i = .rstr o (.num a)) ∧
    (t.mem ≠ s.mem → ∃ o m, i = .rstr o m) ∧
    (t.callStack ≠ s.callStack → (∃ g, i = .call g) ∨ i = .ret) ∧
    t.image = s.image) ∧
  (∀ (i : Instr) (s t : State) (m : Memory), (∀ o a, i ≠ .rlod o a) → exec i s = .next t →
    ∃ u, exec i { s with mem := m } = .next u ∧ u.x = t.x ∧ u.callStack = t.callStack ∧
      u.pc = t.pc ∧ u.run = t.run ∧ u.image = t.image ∧ u.event = t.event)

/-- R63: no run of ticks, whatever it stores, changes the program store; `start` replaces it whole before the first
fetch of the new run. -/
def Obligations.TicksNeverChangeTheProgram : Prop :=
  (∀ (k : Nat) (s t : State), ticks k s = .next t → t.image = s.image) ∧
  (∀ (s t : State) (im : Image), input (.start im) s = .next t → t.image = im)

/-- A cell keeps its value over any number of ticks that execute no RSTR to it (20_memory.md section 4). -/
def Obligations.ACellKeepsItsValueUntilTheNextStore : Prop :=
  ∀ (k : Nat) (s t : State) (a : CellAddr), s.mem.wf = true → ticks k s = .next t →
    (∀ j u, j < k → ticks j s = .next u → u.run = .running →
      ∀ o, fetch u.image u.pc ≠ .entry (.rstr o (.num a))) →
    t.memRead a = s.memRead a

/-! ## Control flow over runs -/

/-- R177: a resolved target is not range-checked: a jump, a call (which still pushes) or a return to an index at or past
the end is taken, and the next tick halts the run and reports `ProgramFinished`. -/
def Obligations.TargetsAreNotRangeChecked : Prop :=
  ∀ (s : State) (g : Nat), s.run = .running → imageLength s.image ≤ g →
    (fetch s.image s.pc = .entry (.jmp g) → ∃ u v, step s = .next u ∧ u.pc = g ∧
      u.callStack = s.callStack ∧ u.run = .running ∧ u.event = .none ∧ step u = .next v ∧
      HaltsWith .programFinished u v) ∧
    (fetch s.image s.pc = .entry (.call g) → ∃ u v, step s = .next u ∧ u.pc = g ∧
      u.callStack = (s.pc + 1) :: s.callStack ∧ u.run = .running ∧ u.event = .none ∧
      step u = .next v ∧ HaltsWith .programFinished u v) ∧
    (∀ rest, fetch s.image s.pc = .entry .ret → s.callStack = g :: rest →
      ∃ u v, step s = .next u ∧ u.pc = g ∧ u.callStack = rest ∧ u.run = .running ∧
        u.event = .none ∧ step u = .next v ∧ HaltsWith .programFinished u v)

/-- The stack discipline (43_control.md section 3): after a CALL, as long as the Call Stack has stayed deeper than the CALL
found it, a RET executed at the depth the CALL left resumes at the index after that CALL with the stack the CALL found, for
any number of ticks and any nesting depth between. The depths say what the spec says by counting calls and returns. -/
def Obligations.ReturnResumesAfterItsCall : Prop :=
  ∀ (s v : State) (g k : Nat), s.run = .running → fetch s.image s.pc = .entry (.call g) →
    ticks (k + 1) s = .next v →
    (∀ j u, j ≤ k → ticks (j + 1) s = .next u → s.callStack.length < u.callStack.length) →
    v.callStack.length = s.callStack.length + 1 →
    v.run = .running → fetch v.image v.pc = .entry .ret →
    ∃ w, step v = .next w ∧ w.pc = s.pc + 1 ∧ w.callStack = s.callStack ∧ w.run = .running

/-- The only data-dependent control flow is RET through the Call Stack (43_control.md section 1): two cores that differ
only in registers and memory pass through the same Call Stacks, pcs, run states, images and events under every sequence
of input events. -/
def Obligations.ControlFlowIgnoresRegistersAndMemory : Prop :=
  ∀ (es : List InputEvent) (s s' t : State), SameControl s s' → runInputs es s = .next t →
    ∃ t', runInputs es s' = .next t' ∧ SameControl t t'

/-- No input event reads the event output, so no sequence of them does. That no instruction reads it is
60_exceptions.md section 2; that the output is held in a field of State, which `start`, `stop` and `reset` set to none,
is the model's choice (log 2). -/
def Obligations.NoInputReadsTheReportedEvent : Prop :=
  ∀ (s : State) (e : Event) (i : InputEvent) (es : List InputEvent),
    runInputs (i :: es) (s.setEvent e) = runInputs (i :: es) s

/-! ## The invariant -/

/-- The reset state has the invariant `Invariant`; its image and pc are the spec's decision D13 (log 4). -/
def Obligations.InvariantHoldsAtReset : Prop := Invariant State.reset

/-- Every step keeps the invariant: the memory list canonical, every Call Stack entry in [1, len(P)], the image one that
`start` accepts, the pc 16 bits wide at Level W, and the event output fitting the run state. -/
def Obligations.StepKeepsTheInvariant : Prop :=
  ∀ s t : State, Invariant s → step s = .next t → Invariant t

/-- The other three input events keep the invariant too. -/
def Obligations.StartStopAndResetKeepTheInvariant : Prop :=
  ∀ (e : InputEvent) (s t : State), e ≠ .tick → Invariant s → input e s = .next t → Invariant t

/-- Progress: in every state of the invariant every input event, a started image being one the spec gives a meaning,
answers a next state of the invariant, so no sequence of them faults or refuses (93_implementation_defined.md
section 3). The last clause is the sequences from reset, whose values are decision D13 (log 4). -/
def Obligations.AcceptedRunsNeverStop : Prop :=
  (∀ (e : InputEvent) (s : State), Invariant s → (∀ im, e = .start im → imageRefusal im = none) →
    ∃ t, input e s = .next t ∧ Invariant t) ∧
  (∀ (es : List InputEvent) (s : State), Invariant s →
    (∀ im, InputEvent.start im ∈ es → imageRefusal im = none) →
    ∃ t, runInputs es s = .next t ∧ Invariant t) ∧
  (∀ es : List InputEvent, (∀ im, InputEvent.start im ∈ es → imageRefusal im = none) →
    ∃ t, runInputs es State.reset = .next t ∧ Invariant t)

/-! ## The two levels of description -/

/-- For every line and Label Table the assembler does not refuse, and every state, executing the decoded word and
executing the decoded line give the same next state and event (30_encoding.md Part D, which the spec derives; decisions D1,
D3, D5, D6; log 11). -/
def Obligations.LevelsAgreeOnEveryLine : Prop :=
  ∀ (lt : LabelTable) (l : Line) (w : Word), asmLine lt l = some w →
    ∃ i, decodeT lt l = some i ∧ ∀ s : State, exec (decodeW w) s = exec i s

/-- A source text started at Level T and its assembled words started at Level W run alike for every number of ticks: the
states differ in the program image alone, events included (00_scope.md section 6; decision D1; log 3, log 11). -/
def Obligations.RunsAgreeAtBothLevels : Prop :=
  ∀ (src : List Char) (P : List Word), assemble src = some P → ∀ (k : Nat) (s : State),
    ∃ t, runInputs (.start (parse src) :: List.replicate k .tick) s = .next t ∧
      t.image = parse src ∧
      runInputs (.start (.words P) :: List.replicate k .tick) s = .next (t.setImage (.words P))

/-- A line has no meaning exactly when it is one of R94 (a), said by its tokens, and the assembler refuses a line exactly
when it is one of these, its target is above 65535, or its IMM literal is outside [-32768, 65535] (30_encoding.md R94,
decisions D5, D6; log 14, log 28). -/
def Obligations.AsmRefusesExactlyTheListedLines : Prop :=
  (∀ (lt : LabelTable) (l : Line), decodeT lt l = none ↔ NegativeTargetLine lt l) ∧
  (∀ (lt : LabelTable) (l : Line), asmLine lt l = none ↔
    NegativeTargetLine lt l ∨
    (∃ g, (decodeT lt l = some (.jmp g) ∨ decodeT lt l = some (.call g)) ∧ 65535 < g) ∨
    (∃ a i, decodeT lt l = some (.imm a (.lit i)) ∧ (i < -32768 ∨ 65535 < i)))

/-- `assemble` refuses a text of more than 65535 lines whole and otherwise refuses it exactly when it refuses a line; a
program it answers has one word per line, in the same order, each the line's own word, so instruction indices mean the
same at both levels (30_encoding.md Part D; decisions D1, D6; log 11, log 15). -/
def Obligations.AssembledProgramKeepsEveryIndex : Prop :=
  (∀ src : List Char, assemble src = none ↔ 65535 < (splitLines src).length ∨
    ∃ l ∈ splitLines src, asmLine (labelTable (splitLines src)) l = none) ∧
  ∀ (src : List Char) (P : List Word), assemble src = some P →
    P.length = (splitLines src).length ∧ P.length ≤ 65535 ∧
    ∀ (n : Nat) (l : Line), (splitLines src)[n]? = some l →
      P[n]? = asmLine (labelTable (splitLines src)) l

/-- A line declares a name exactly when it is whitespace, a dot, the name and whitespace, the name not ending in
whitespace; and the Label Table maps a name to the index of the last line that declares it, and to nothing when no line
does (30_encoding.md Part A; decisions D17, D18; log 12, log 24). -/
def Obligations.LabelTableHoldsTheLastDeclaration : Prop :=
  (∀ (l : Line) (name : Token), labelName l = some name ↔
    ∃ before after : Line, (∀ c ∈ before, isSpace c = true) ∧ (∀ c ∈ after, isSpace c = true) ∧
      (∀ c, name.getLast? = some c → isSpace c = false) ∧ l = before ++ '.' :: (name ++ after)) ∧
  ∀ (lines : List Line) (name : Token),
    (∀ n, lookupLabel name (labelTable lines) = some n ↔
      (∃ l, lines[n]? = some l ∧ labelName l = some name) ∧
      ∀ m l, n < m → lines[m]? = some l → labelName l ≠ some name) ∧
    (lookupLabel name (labelTable lines) = none ↔ ∀ l ∈ lines, labelName l ≠ some name)

/-- The lines of a text, joined by line feeds, are the text, and no line holds a line feed: nothing is removed, merged or
reordered (30_encoding.md Part A; decision D17; log 12). -/
def Obligations.LinesRejoinToTheSourceText : Prop :=
  ∀ src : List Char, List.intercalate ['\n'] (splitLines src) = src ∧
    ∀ l ∈ splitLines src, '\n' ∉ l

/-- Decimal tokens are read positionally: the ten digits have their values and no other character has one, one digit is
its value, a further digit multiplies by ten and adds, leading zeros change nothing, and the empty token and a token
with a character that is no digit are no decimals (30_encoding.md Part A; decision D4; log 13). -/
def Obligations.DecimalTokensArePositional : Prop :=
  (∀ n : Nat, n < 10 → digitValue (Char.ofNat ('0'.toNat + n)) = some n) ∧
  (∀ c : Char, c ∉ "0123456789".toList → digitValue c = none) ∧
  (∀ (c : Char) (d : Nat), digitValue c = some d → decimal [c] = some d) ∧
  (∀ (t : Token) (c : Char) (v d : Nat), decimal t = some v → digitValue c = some d →
    decimal (t ++ [c]) = some (v * 10 + d)) ∧
  (∀ t : Token, t ≠ [] → decimal ('0' :: t) = decimal t) ∧
  (∀ (t : Token) (c : Char), c ∈ t → digitValue c = none → decimal t = none) ∧
  decimal [] = none

/-- Whitespace around a line and the case of its command token change nothing (30_encoding.md Part A; decision D17;
log 12). -/
def Obligations.SurroundingSpaceAndCommandCaseDoNotMatter : Prop :=
  (∀ (lt : LabelTable) (l before after : Line), (∀ c ∈ before, isSpace c = true) →
    (∀ c ∈ after, isSpace c = true) → decodeT lt (before ++ l ++ after) = decodeT lt l) ∧
  (∀ (lt : LabelTable) (l l' : Line) (cmd cmd' : Token) (ops : List Token),
    tokens l = cmd :: ops → tokens l' = cmd' :: ops → upperToken cmd = upperToken cmd' →
    decodeT lt l = decodeT lt l')

/-! ## Outputs -/

/-- The 3-bit code of every event is the one of the table of R203; they are distinct, and 6 and 7 are never emitted (the
codes are the spec's decision D16; log 21). -/
def Obligations.EventCodesAreDistinct : Prop :=
  Event.none.code = 0 ∧ Event.invalidOperand.code = 1 ∧ Event.unresolvedTarget.code = 2 ∧
  Event.unknownInstruction.code = 3 ∧ Event.emptyCallStack.code = 4 ∧
  Event.programFinished.code = 5 ∧
  (∀ e e' : Event, e.code = e'.code → e = e') ∧ ∀ e : Event, e.code ≠ 6 ∧ e.code ≠ 7

/-- The dumps show every register and every memory cell at its index (40_sequencer.md section 2). R116 says so of the
states a due tick leaves; that they do in every other state too is the model's choice (log 31). -/
def Obligations.DumpsShowEveryRegisterAndCell : Prop :=
  ∀ s : State, s.regDump.length = 8 ∧ (∀ r : RegIndex, s.regDump[(r : Nat)]? = some (s.readReg r)) ∧
    s.memDump.length = 16 ∧ ∀ a : CellAddr, s.memDump[(a : Nat)]? = some (s.memRead a)

/-! ## Tokens and numbers -/

/-- The tokens of a line are the maximal runs of characters that are not space, tab or carriage return, and folding a
command token is over the ASCII letters: the clauses give both for every line (30_encoding.md Part A; decision D17;
log 12). -/
def Obligations.TokensAreTheMaximalRunsOfNonSpace : Prop :=
  (∀ c : Char, isSpace c = true ↔ c = ' ' ∨ c = '\t' ∨ c = '\r') ∧
  tokens [] = [] ∧
  (∀ t : Token, t ≠ [] → (∀ c ∈ t, isSpace c = false) → tokens t = [t]) ∧
  (∀ (l l' : Line) (c : Char), isSpace c = true → tokens (l ++ c :: l') = tokens l ++ tokens l') ∧
  upperToken "abcdefghijklmnopqrstuvwxyz".toList = "ABCDEFGHIJKLMNOPQRSTUVWXYZ".toList ∧
  (∀ c : Char, c ∉ "abcdefghijklmnopqrstuvwxyz".toList → upperToken [c] = [c]) ∧
  (∀ t t' : Token, upperToken (t ++ t') = upperToken t ++ upperToken t')

/-- A number token is a decimal or a minus sign and a decimal; a register index or address token is the number it spells
unless that is negative; an IMM literal token is the number it spells; absent and malformed tokens are `bad`
(30_encoding.md Part A; decision D4; log 13). -/
def Obligations.NumberTokensConvertToOperands : Prop :=
  (∀ (t : Token) (i : Int), number t = some i ↔
    (∃ n : Nat, decimal t = some n ∧ i = n) ∨
    (∃ (digits : Token) (n : Nat), t = '-' :: digits ∧ decimal digits = some n ∧ i = -n)) ∧
  indexOperand none = .bad ∧ literalOperand none = .bad ∧
  (∀ (t : Token) (n : Nat), indexOperand (some t) = .num n ↔ number t = some (n : Int)) ∧
  (∀ t : Token, indexOperand (some t) = .bad ↔ ∀ n : Nat, number t ≠ some (n : Int)) ∧
  (∀ (t : Token) (i : Int), literalOperand (some t) = .lit i ↔ number t = some i) ∧
  (∀ t : Token, literalOperand (some t) = .bad ↔ number t = none)
end

