-- ==== Sys2Proof/Laws/State.lean ====
section
/-! SUPPORT. One lemma per field per update of the state, true by `rfl`. -/

namespace Sys2Proof.Machine

@[simp] theorem State.writeReg_x (s : State) (r : RegIndex) (v : Byte) : (s.writeReg r v).x = s.x.set r v := rfl
@[simp] theorem State.writeReg_mem (s : State) (r : RegIndex) (v : Byte) : (s.writeReg r v).mem = s.mem := rfl
@[simp] theorem State.writeReg_callStack (s : State) (r : RegIndex) (v : Byte) : (s.writeReg r v).callStack = s.callStack := rfl
@[simp] theorem State.writeReg_pc (s : State) (r : RegIndex) (v : Byte) : (s.writeReg r v).pc = s.pc := rfl
@[simp] theorem State.writeReg_run (s : State) (r : RegIndex) (v : Byte) : (s.writeReg r v).run = s.run := rfl
@[simp] theorem State.writeReg_image (s : State) (r : RegIndex) (v : Byte) : (s.writeReg r v).image = s.image := rfl
@[simp] theorem State.writeReg_event (s : State) (r : RegIndex) (v : Byte) : (s.writeReg r v).event = s.event := rfl

@[simp] theorem State.memWrite_x (s : State) (a : CellAddr) (v : Byte) : (s.memWrite a v).x = s.x := rfl
@[simp] theorem State.memWrite_mem (s : State) (a : CellAddr) (v : Byte) : (s.memWrite a v).mem = memSet s.mem a v := rfl
@[simp] theorem State.memWrite_callStack (s : State) (a : CellAddr) (v : Byte) : (s.memWrite a v).callStack = s.callStack := rfl
@[simp] theorem State.memWrite_pc (s : State) (a : CellAddr) (v : Byte) : (s.memWrite a v).pc = s.pc := rfl
@[simp] theorem State.memWrite_run (s : State) (a : CellAddr) (v : Byte) : (s.memWrite a v).run = s.run := rfl
@[simp] theorem State.memWrite_image (s : State) (a : CellAddr) (v : Byte) : (s.memWrite a v).image = s.image := rfl
@[simp] theorem State.memWrite_event (s : State) (a : CellAddr) (v : Byte) : (s.memWrite a v).event = s.event := rfl

@[simp] theorem State.setPc_x (s : State) (n : Nat) : (s.setPc n).x = s.x := rfl
@[simp] theorem State.setPc_mem (s : State) (n : Nat) : (s.setPc n).mem = s.mem := rfl
@[simp] theorem State.setPc_callStack (s : State) (n : Nat) : (s.setPc n).callStack = s.callStack := rfl
@[simp] theorem State.setPc_pc (s : State) (n : Nat) : (s.setPc n).pc = n := rfl
@[simp] theorem State.setPc_run (s : State) (n : Nat) : (s.setPc n).run = s.run := rfl
@[simp] theorem State.setPc_image (s : State) (n : Nat) : (s.setPc n).image = s.image := rfl
@[simp] theorem State.setPc_event (s : State) (n : Nat) : (s.setPc n).event = s.event := rfl

@[simp] theorem State.advance_x (s : State) : s.advance.x = s.x := rfl
@[simp] theorem State.advance_mem (s : State) : s.advance.mem = s.mem := rfl
@[simp] theorem State.advance_callStack (s : State) : s.advance.callStack = s.callStack := rfl
@[simp] theorem State.advance_pc (s : State) : s.advance.pc = s.pc + 1 := rfl
@[simp] theorem State.advance_run (s : State) : s.advance.run = s.run := rfl
@[simp] theorem State.advance_image (s : State) : s.advance.image = s.image := rfl
@[simp] theorem State.advance_event (s : State) : s.advance.event = s.event := rfl

@[simp] theorem State.setRun_x (s : State) (r : RunState) : (s.setRun r).x = s.x := rfl
@[simp] theorem State.setRun_mem (s : State) (r : RunState) : (s.setRun r).mem = s.mem := rfl
@[simp] theorem State.setRun_callStack (s : State) (r : RunState) : (s.setRun r).callStack = s.callStack := rfl
@[simp] theorem State.setRun_pc (s : State) (r : RunState) : (s.setRun r).pc = s.pc := rfl
@[simp] theorem State.setRun_run (s : State) (r : RunState) : (s.setRun r).run = r := rfl
@[simp] theorem State.setRun_image (s : State) (r : RunState) : (s.setRun r).image = s.image := rfl
@[simp] theorem State.setRun_event (s : State) (r : RunState) : (s.setRun r).event = s.event := rfl

@[simp] theorem State.setEvent_x (s : State) (e : Event) : (s.setEvent e).x = s.x := rfl
@[simp] theorem State.setEvent_mem (s : State) (e : Event) : (s.setEvent e).mem = s.mem := rfl
@[simp] theorem State.setEvent_callStack (s : State) (e : Event) : (s.setEvent e).callStack = s.callStack := rfl
@[simp] theorem State.setEvent_pc (s : State) (e : Event) : (s.setEvent e).pc = s.pc := rfl
@[simp] theorem State.setEvent_run (s : State) (e : Event) : (s.setEvent e).run = s.run := rfl
@[simp] theorem State.setEvent_image (s : State) (e : Event) : (s.setEvent e).image = s.image := rfl
@[simp] theorem State.setEvent_event (s : State) (e : Event) : (s.setEvent e).event = e := rfl

@[simp] theorem State.setCallStack_x (s : State) (l : List Nat) : (s.setCallStack l).x = s.x := rfl
@[simp] theorem State.setCallStack_mem (s : State) (l : List Nat) : (s.setCallStack l).mem = s.mem := rfl
@[simp] theorem State.setCallStack_callStack (s : State) (l : List Nat) : (s.setCallStack l).callStack = l := rfl
@[simp] theorem State.setCallStack_pc (s : State) (l : List Nat) : (s.setCallStack l).pc = s.pc := rfl
@[simp] theorem State.setCallStack_run (s : State) (l : List Nat) : (s.setCallStack l).run = s.run := rfl
@[simp] theorem State.setCallStack_image (s : State) (l : List Nat) : (s.setCallStack l).image = s.image := rfl
@[simp] theorem State.setCallStack_event (s : State) (l : List Nat) : (s.setCallStack l).event = s.event := rfl

@[simp] theorem State.push_x (s : State) (n : Nat) : (s.push n).x = s.x := rfl
@[simp] theorem State.push_mem (s : State) (n : Nat) : (s.push n).mem = s.mem := rfl
@[simp] theorem State.push_callStack (s : State) (n : Nat) : (s.push n).callStack = n :: s.callStack := rfl
@[simp] theorem State.push_pc (s : State) (n : Nat) : (s.push n).pc = s.pc := rfl
@[simp] theorem State.push_run (s : State) (n : Nat) : (s.push n).run = s.run := rfl
@[simp] theorem State.push_image (s : State) (n : Nat) : (s.push n).image = s.image := rfl
@[simp] theorem State.push_event (s : State) (n : Nat) : (s.push n).event = s.event := rfl

@[simp] theorem State.setImage_x (s : State) (im : Image) : (s.setImage im).x = s.x := rfl
@[simp] theorem State.setImage_mem (s : State) (im : Image) : (s.setImage im).mem = s.mem := rfl
@[simp] theorem State.setImage_callStack (s : State) (im : Image) : (s.setImage im).callStack = s.callStack := rfl
@[simp] theorem State.setImage_pc (s : State) (im : Image) : (s.setImage im).pc = s.pc := rfl
@[simp] theorem State.setImage_run (s : State) (im : Image) : (s.setImage im).run = s.run := rfl
@[simp] theorem State.setImage_image (s : State) (im : Image) : (s.setImage im).image = im := rfl
@[simp] theorem State.setImage_event (s : State) (im : Image) : (s.setImage im).event = s.event := rfl

@[simp] theorem State.beginEntry_x (s : State) : s.beginEntry.x = s.x := rfl
@[simp] theorem State.beginEntry_mem (s : State) : s.beginEntry.mem = s.mem := rfl
@[simp] theorem State.beginEntry_callStack (s : State) : s.beginEntry.callStack = s.callStack := rfl
@[simp] theorem State.beginEntry_pc (s : State) : s.beginEntry.pc = s.pc := rfl
@[simp] theorem State.beginEntry_run (s : State) : s.beginEntry.run = s.run := rfl
@[simp] theorem State.beginEntry_image (s : State) : s.beginEntry.image = s.image := rfl
@[simp] theorem State.beginEntry_event (s : State) : s.beginEntry.event = Event.none := rfl

@[simp] theorem State.idleTick_x (s : State) : s.idleTick.x = s.x := rfl
@[simp] theorem State.idleTick_mem (s : State) : s.idleTick.mem = s.mem := rfl
@[simp] theorem State.idleTick_callStack (s : State) : s.idleTick.callStack = s.callStack := rfl
@[simp] theorem State.idleTick_pc (s : State) : s.idleTick.pc = s.pc := rfl
@[simp] theorem State.idleTick_run (s : State) : s.idleTick.run = s.run := rfl
@[simp] theorem State.idleTick_image (s : State) : s.idleTick.image = s.image := rfl
@[simp] theorem State.idleTick_event (s : State) : s.idleTick.event = Event.none := rfl

@[simp] theorem State.finishProgram_x (s : State) : s.finishProgram.x = s.x := rfl
@[simp] theorem State.finishProgram_mem (s : State) : s.finishProgram.mem = s.mem := rfl
@[simp] theorem State.finishProgram_callStack (s : State) : s.finishProgram.callStack = s.callStack := rfl
@[simp] theorem State.finishProgram_pc (s : State) : s.finishProgram.pc = s.pc := rfl
@[simp] theorem State.finishProgram_run (s : State) : s.finishProgram.run = RunState.halted := rfl
@[simp] theorem State.finishProgram_image (s : State) : s.finishProgram.image = s.image := rfl
@[simp] theorem State.finishProgram_event (s : State) : s.finishProgram.event = Event.programFinished := rfl

@[simp] theorem State.load_x (s : State) (im : Image) : (s.load im).x = s.x := rfl
@[simp] theorem State.load_mem (s : State) (im : Image) : (s.load im).mem = s.mem := rfl
@[simp] theorem State.load_callStack (s : State) (im : Image) : (s.load im).callStack = [] := rfl
@[simp] theorem State.load_pc (s : State) (im : Image) : (s.load im).pc = 0 := rfl
@[simp] theorem State.load_run (s : State) (im : Image) : (s.load im).run = RunState.running := rfl
@[simp] theorem State.load_image (s : State) (im : Image) : (s.load im).image = im := rfl
@[simp] theorem State.load_event (s : State) (im : Image) : (s.load im).event = Event.none := rfl

@[simp] theorem State.writeReg_memRead (s : State) (r : RegIndex) (v : Byte) (c : CellAddr) :
    (s.writeReg r v).memRead c = s.memRead c := rfl
@[simp] theorem State.memWrite_readReg (s : State) (a : CellAddr) (v : Byte) (q : RegIndex) :
    (s.memWrite a v).readReg q = s.readReg q := rfl
@[simp] theorem State.setPc_readReg (s : State) (n : Nat) (q : RegIndex) :
    (s.setPc n).readReg q = s.readReg q := rfl
@[simp] theorem State.setPc_memRead (s : State) (n : Nat) (c : CellAddr) :
    (s.setPc n).memRead c = s.memRead c := rfl
@[simp] theorem State.advance_readReg (s : State) (q : RegIndex) :
    s.advance.readReg q = s.readReg q := rfl
@[simp] theorem State.advance_memRead (s : State) (c : CellAddr) :
    s.advance.memRead c = s.memRead c := rfl
@[simp] theorem State.setRun_readReg (s : State) (r : RunState) (q : RegIndex) :
    (s.setRun r).readReg q = s.readReg q := rfl
@[simp] theorem State.setRun_memRead (s : State) (r : RunState) (c : CellAddr) :
    (s.setRun r).memRead c = s.memRead c := rfl
@[simp] theorem State.setEvent_readReg (s : State) (e : Event) (q : RegIndex) :
    (s.setEvent e).readReg q = s.readReg q := rfl
@[simp] theorem State.setEvent_memRead (s : State) (e : Event) (c : CellAddr) :
    (s.setEvent e).memRead c = s.memRead c := rfl
@[simp] theorem State.setCallStack_readReg (s : State) (l : List Nat) (q : RegIndex) :
    (s.setCallStack l).readReg q = s.readReg q := rfl
@[simp] theorem State.setCallStack_memRead (s : State) (l : List Nat) (c : CellAddr) :
    (s.setCallStack l).memRead c = s.memRead c := rfl
@[simp] theorem State.push_readReg (s : State) (n : Nat) (q : RegIndex) :
    (s.push n).readReg q = s.readReg q := rfl
@[simp] theorem State.push_memRead (s : State) (n : Nat) (c : CellAddr) :
    (s.push n).memRead c = s.memRead c := rfl
@[simp] theorem State.setImage_readReg (s : State) (im : Image) (q : RegIndex) :
    (s.setImage im).readReg q = s.readReg q := rfl
@[simp] theorem State.setImage_memRead (s : State) (im : Image) (c : CellAddr) :
    (s.setImage im).memRead c = s.memRead c := rfl
@[simp] theorem State.beginEntry_readReg (s : State) (q : RegIndex) :
    s.beginEntry.readReg q = s.readReg q := rfl
@[simp] theorem State.beginEntry_memRead (s : State) (c : CellAddr) :
    s.beginEntry.memRead c = s.memRead c := rfl
@[simp] theorem State.idleTick_readReg (s : State) (q : RegIndex) :
    s.idleTick.readReg q = s.readReg q := rfl
@[simp] theorem State.idleTick_memRead (s : State) (c : CellAddr) :
    s.idleTick.memRead c = s.memRead c := rfl

end Sys2Proof.Machine
end

