-- ==== Sys2Proof/Laws/Ops.lean ====
section
/-! SUPPORT. What the shared operations do: registers and memory read after a write, the canonical form of
memory, operands, errors, the three-register operation, fetch and step. -/

namespace Sys2Proof.Machine

/-! ## Registers -/

theorem readReg_writeReg_self (s : State) (r : RegIndex) (v : Byte) :
    (s.writeReg r v).readReg r = v := by
  simp [State.readReg, State.writeReg]

theorem readReg_writeReg_ne (s : State) {r q : RegIndex} (v : Byte) (h : q ≠ r) :
    (s.writeReg r v).readReg q = s.readReg q := by
  have h' : (r : Nat) ≠ q := fun e => h (Fin.ext e.symm)
  simp [State.readReg, State.writeReg, h']

/-! ## Memory -/

theorem memWfFrom_mono {m : Memory} {lo lo' : Nat} (hl : lo' ≤ lo) (h : memWfFrom lo m = true) :
    memWfFrom lo' m = true := by
  cases m with
  | nil => rfl
  | cons c rest =>
    obtain ⟨k, v⟩ := c
    simp only [memWfFrom, Bool.and_eq_true, decide_eq_true_eq] at h ⊢
    exact ⟨⟨⟨by omega, h.1.1.2⟩, h.1.2⟩, h.2⟩

/-- An address below the first listed one is unlisted. -/
theorem memGet_of_below {m : Memory} {lo a : Nat} (h : memWfFrom lo m = true) (ha : a < lo) :
    memGet m a = Config.unlistedByte := by
  induction m generalizing lo with
  | nil => rfl
  | cons c rest ih =>
    obtain ⟨k, v⟩ := c
    simp only [memWfFrom, Bool.and_eq_true, decide_eq_true_eq] at h
    have hk : k ≠ a := by omega
    simp only [memGet, if_neg hk]
    exact ih h.2 (by omega)

/-- Memory write law: the written address reads as written, every other one as before. -/
theorem memGet_memSet {m : Memory} {lo : Nat} (h : memWfFrom lo m = true) (a b : Nat) (v : Byte) :
    memGet (memSet m a v) b = if b = a then v else memGet m b := by
  induction m generalizing lo with
  | nil =>
    by_cases hv : v = Config.unlistedByte
    · simp [memSet, memGet, hv]
    · by_cases hb : b = a
      · simp [memSet, memGet, hv, hb]
      · simp [memSet, memGet, hv, hb, Ne.symm hb]
  | cons c rest ih =>
    obtain ⟨k, w⟩ := c
    simp only [memWfFrom, Bool.and_eq_true, decide_eq_true_eq] at h
    simp only [memSet]
    by_cases hak : a < k
    · have hun : memGet rest a = Config.unlistedByte := memGet_of_below h.2 (by omega)
      rw [if_pos hak]
      by_cases hv : v = Config.unlistedByte
      · rw [if_pos hv]
        by_cases hb : b = a
        · subst hb
          simp only [memGet, if_neg (show k ≠ b by omega), hun, hv, if_true]
        · simp [hb]
      · rw [if_neg hv]
        by_cases hb : b = a
        · simp [memGet, hb]
        · simp [memGet, hb, Ne.symm hb]
    · rw [if_neg hak]
      by_cases hk : a = k
      · subst hk
        rw [if_pos rfl]
        by_cases hv : v = Config.unlistedByte
        · rw [if_pos hv]
          by_cases hb : b = a
          · subst hb
            simp [memGet_of_below h.2 (Nat.lt_succ_self _), hv]
          · simp [memGet, hb, Ne.symm hb]
        · rw [if_neg hv]
          by_cases hb : b = a
          · simp [memGet, hb]
          · simp [memGet, hb, Ne.symm hb]
      · rw [if_neg hk]
        simp only [memGet, ih h.2]
        by_cases hb : b = a
        · subst hb
          simp [Ne.symm hk]
        · simp [hb]

/-- A write keeps the canonical form. -/
theorem memSet_wfFrom {m : Memory} {lo a : Nat} (h : memWfFrom lo m = true) (hlo : lo ≤ a)
    (ha : a < 16) (v : Byte) : memWfFrom lo (memSet m a v) = true := by
  induction m generalizing lo with
  | nil =>
    simp only [memSet]
    split <;> simp_all [memWfFrom]
  | cons c rest ih =>
    obtain ⟨k, w⟩ := c
    have h0 := h
    simp only [memWfFrom, Bool.and_eq_true, decide_eq_true_eq] at h
    obtain ⟨⟨⟨h1, h2⟩, h3⟩, h4⟩ := h
    simp only [memSet]
    by_cases hak : a < k
    · rw [if_pos hak]
      by_cases hv : v = Config.unlistedByte
      · rw [if_pos hv]; exact h0
      · rw [if_neg hv]
        simp only [memWfFrom, Bool.and_eq_true, decide_eq_true_eq]
        exact ⟨⟨⟨hlo, ha⟩, hv⟩, ⟨⟨by omega, h2⟩, h3⟩, h4⟩
    · rw [if_neg hak]
      by_cases hk : a = k
      · rw [if_pos hk]
        by_cases hv : v = Config.unlistedByte
        · rw [if_pos hv]; exact memWfFrom_mono (by omega) h4
        · rw [if_neg hv]
          simp only [memWfFrom, Bool.and_eq_true, decide_eq_true_eq]
          exact ⟨⟨⟨hlo, ha⟩, hv⟩, hk ▸ h4⟩
      · rw [if_neg hk]
        simp only [memWfFrom, Bool.and_eq_true, decide_eq_true_eq]
        exact ⟨⟨⟨h1, h2⟩, h3⟩, ih h4 (by omega)⟩

/-- The one operation that writes memory keeps its canonical form. -/
theorem memWrite_wf {s : State} (h : s.mem.wf = true) (a : CellAddr) (v : Byte) :
    (s.memWrite a v).mem.wf = true :=
  memSet_wfFrom h (Nat.zero_le _) a.isLt v

theorem reset_mem_wf : State.reset.mem.wf = true := by decide

theorem memRead_memWrite_self {s : State} (h : s.mem.wf = true) (a : CellAddr) (v : Byte) :
    (s.memWrite a v).memRead a = v := by
  simp only [State.memRead, State.memWrite_mem, memGet_memSet h, if_true]

theorem memRead_memWrite_ne {s : State} (h : s.mem.wf = true) {a b : CellAddr} (v : Byte)
    (hb : b ≠ a) : (s.memWrite a v).memRead b = s.memRead b := by
  have hb' : (b : Nat) ≠ a := fun e => hb (Fin.ext e)
  simp only [State.memRead, State.memWrite_mem, memGet_memSet h, if_neg hb']

/-! ## Operands -/

@[simp] theorem regOf_num (r : RegIndex) : regOf (.num r) = some r := by simp [regOf]

@[simp] theorem cellOf_num (a : CellAddr) : cellOf (.num a) = some a := by simp [cellOf]

theorem regOf_eq_none_iff (o : Operand) : regOf o = none ↔ regOk o = false := by
  cases o with
  | num n => by_cases h : n < 8 <;> simp [regOf, regOk, h]
  | bad => simp [regOf, regOk]

theorem cellOf_eq_none_iff (o : Operand) : cellOf o = none ↔ memOk o = false := by
  cases o with
  | num n => by_cases h : n < 16 <;> simp [cellOf, memOk, h]
  | bad => simp [cellOf, memOk]

theorem regOf_eq_some_iff (o : Operand) (r : RegIndex) : regOf o = some r ↔ o = .num r := by
  cases o with
  | num n =>
    by_cases h : n < 8
    · simp [regOf, h, Fin.ext_iff]
    · simp only [regOf, dif_neg h, Operand.num.injEq, reduceCtorEq, false_iff]
      exact fun e => h (e ▸ r.isLt)
  | bad => simp [regOf]

theorem cellOf_eq_some_iff (o : Operand) (a : CellAddr) : cellOf o = some a ↔ o = .num a := by
  cases o with
  | num n =>
    by_cases h : n < 16
    · simp [cellOf, h, Fin.ext_iff]
    · simp only [cellOf, dif_neg h, Operand.num.injEq, reduceCtorEq, false_iff]
      exact fun e => h (e ▸ a.isLt)
  | bad => simp [cellOf]

theorem regOk_of_regOf {o : Operand} {r : RegIndex} (h : regOf o = some r) : regOk o = true := by
  rw [regOf_eq_some_iff] at h
  simp [h, regOk]

theorem memOk_of_cellOf {o : Operand} {a : CellAddr} (h : cellOf o = some a) : memOk o = true := by
  rw [cellOf_eq_some_iff] at h
  simp [h, memOk]

/-! ## Errors -/

theorem raise_of_recoverable (s : State) {k : ErrorKind} (h : k.isFatal = false) :
    s.raise k = (s.setEvent k.event).advance := by
  simp [State.raise, h]

theorem raise_of_fatal (s : State) {k : ErrorKind} (h : k.isFatal = true) :
    s.raise k = (s.setEvent k.event).setRun .halted := by
  simp [State.raise, h]

theorem raise_recovers (s : State) {k : ErrorKind} (h : k.isFatal = false) :
    Recovers k s (s.raise k) := by
  rw [raise_of_recoverable s h]
  exact ⟨rfl, rfl, rfl, fun _ => rfl, ⟨rfl, fun _ => rfl⟩, rfl, rfl⟩

theorem raise_emptyCallStack_halts (s : State) :
    HaltsWith .emptyCallStack s (s.raise .emptyCallStack) :=
  ⟨rfl, rfl, fun _ => rfl, ⟨rfl, fun _ => rfl⟩, rfl, rfl⟩

/-! ## The shared meanings: everything each can do -/

theorem aluThree_cases (f : Byte → Byte → Byte) (a b c : Operand) (s : State) :
    (∃ ra rb rc, regOf a = some ra ∧ regOf b = some rb ∧ regOf c = some rc ∧
      aluThree f a b c s = .next (s.writeReg rc (f (s.readReg ra) (s.readReg rb))).advance) ∨
    ((regOk a && regOk b && regOk c) = false ∧
      aluThree f a b c s = .next (s.raise .invalidOperand)) := by
  unfold aluThree
  rcases ha : regOf a with _ | ra
  · exact .inr ⟨by simp [(regOf_eq_none_iff a).1 ha], rfl⟩
  rcases hb : regOf b with _ | rb
  · exact .inr ⟨by simp [(regOf_eq_none_iff b).1 hb], rfl⟩
  rcases hc : regOf c with _ | rc
  · exact .inr ⟨by simp [(regOf_eq_none_iff c).1 hc], rfl⟩
  exact .inl ⟨ra, rb, rc, rfl, rfl, rfl, rfl⟩

theorem execNot_cases (a : Operand) (s : State) :
    (∃ ra, regOf a = some ra ∧
      execNot a s = .next (s.writeReg ra (~~~(s.readReg ra))).advance) ∨
    (regOk a = false ∧ execNot a s = .next (s.raise .invalidOperand)) := by
  unfold execNot
  rcases ha : regOf a with _ | ra
  · exact .inr ⟨(regOf_eq_none_iff a).1 ha, rfl⟩
  exact .inl ⟨ra, rfl, rfl⟩

theorem execRsh_cases (a b : Operand) (s : State) :
    (∃ ra rb, regOf a = some ra ∧ regOf b = some rb ∧
      execRsh a b s = .next (s.writeReg rb (s.readReg ra >>> 1)).advance) ∨
    ((regOk a && regOk b) = false ∧ execRsh a b s = .next (s.raise .invalidOperand)) := by
  unfold execRsh
  rcases ha : regOf a with _ | ra
  · exact .inr ⟨by simp [(regOf_eq_none_iff a).1 ha], rfl⟩
  rcases hb : regOf b with _ | rb
  · exact .inr ⟨by simp [(regOf_eq_none_iff b).1 hb], rfl⟩
  exact .inl ⟨ra, rb, rfl, rfl, rfl⟩

theorem execImm_cases (a : Operand) (v : Literal) (s : State) :
    (∃ ra i, regOf a = some ra ∧ v = .lit i ∧
      execImm a v s = .next (s.writeReg ra (BitVec.ofInt 8 i)).advance) ∨
    ((regOk a = false ∨ v = .bad) ∧ execImm a v s = .next (s.raise .invalidOperand)) := by
  unfold execImm
  rcases ha : regOf a with _ | ra
  · exact .inr ⟨.inl ((regOf_eq_none_iff a).1 ha), rfl⟩
  cases v with
  | lit i => exact .inl ⟨ra, i, rfl, rfl, rfl⟩
  | bad => exact .inr ⟨.inr rfl, rfl⟩

theorem execRlod_cases (a m : Operand) (s : State) :
    (∃ ra cell, regOf a = some ra ∧ cellOf m = some cell ∧
      execRlod a m s = .next (s.writeReg ra (s.memRead cell)).advance) ∨
    ((regOk a && memOk m) = false ∧ execRlod a m s = .next (s.raise .invalidOperand)) := by
  unfold execRlod
  rcases ha : regOf a with _ | ra
  · exact .inr ⟨by simp [(regOf_eq_none_iff a).1 ha], rfl⟩
  rcases hm : cellOf m with _ | cell
  · exact .inr ⟨by simp [(cellOf_eq_none_iff m).1 hm], rfl⟩
  exact .inl ⟨ra, cell, rfl, rfl, rfl⟩

theorem execRstr_cases (a m : Operand) (s : State) :
    (∃ ra cell, regOf a = some ra ∧ cellOf m = some cell ∧
      execRstr a m s = .next (s.memWrite cell (s.readReg ra)).advance) ∨
    ((regOk a && memOk m) = false ∧ execRstr a m s = .next (s.raise .invalidOperand)) := by
  unfold execRstr
  rcases ha : regOf a with _ | ra
  · exact .inr ⟨by simp [(regOf_eq_none_iff a).1 ha], rfl⟩
  rcases hm : cellOf m with _ | cell
  · exact .inr ⟨by simp [(cellOf_eq_none_iff m).1 hm], rfl⟩
  exact .inl ⟨ra, cell, rfl, rfl, rfl⟩

theorem execRet_cases (s : State) :
    (∃ t rest, s.callStack = t :: rest ∧ execRet s = .next ((s.setCallStack rest).setPc t)) ∨
    (s.callStack = [] ∧ execRet s = .next (s.raise .emptyCallStack)) := by
  unfold execRet
  rcases h : s.callStack with _ | ⟨t, rest⟩
  · exact .inr ⟨rfl, rfl⟩
  · exact .inl ⟨t, rest, rfl, rfl⟩

/-! ## Fetch and step -/

theorem fetch_eq_pastEnd_iff (im : Image) (n : Nat) :
    fetch im n = .pastEnd ↔ imageLength im ≤ n := by
  cases im with
  | words P =>
    simp only [fetch, imageLength]
    split <;> rename_i h
    · simpa using h
    · simp only [reduceCtorEq, false_iff, Nat.not_le]
      exact (List.getElem?_eq_some_iff.1 h).1
  | text lines lt =>
    simp only [fetch, imageLength]
    split <;> rename_i h
    · simpa using h
    · have := (List.getElem?_eq_some_iff.1 h).1
      split <;> simp only [reduceCtorEq, false_iff, Nat.not_le] <;> exact this

/-- Everything one tick can do. -/
theorem step_cases (s : State) :
    (s.run ≠ .running ∧ step s = .next s.idleTick) ∨
    (s.run = .running ∧ fetch s.image s.pc = .pastEnd ∧ step s = .next s.finishProgram) ∨
    (s.run = .running ∧ fetch s.image s.pc = .noMeaning ∧ step s = .refused .negativeTarget) ∨
    (∃ i, s.run = .running ∧ fetch s.image s.pc = .entry i ∧ step s = exec i s.beginEntry) := by
  unfold step
  rcases hr : s.run
  · exact .inl ⟨by simp, rfl⟩
  · rcases hf : fetch s.image s.pc with _ | _ | i
    · exact .inr (.inl ⟨rfl, rfl, rfl⟩)
    · exact .inr (.inr (.inl ⟨rfl, rfl, rfl⟩))
    · exact .inr (.inr (.inr ⟨i, rfl, rfl, rfl⟩))
  · exact .inl ⟨by simp, rfl⟩

end Sys2Proof.Machine
end

