-- ==== Sys2Proof/Laws/Exec.lean ====
section
/-! SUPPORT. Everything one instruction can do, said once: the later facts about `exec` are read off
`exec_cases` instead of unfolding the meanings again. -/

namespace Sys2Proof.Machine

/-- What `exec i s` can be: a register write, a memory write, an error of the table of 60_exceptions.md R201, or one of the
five instructions that move the pc or the run state. -/
inductive ExecCase (i : Instr) (s : State) : Prop where
  | writesReg (r : RegIndex) (v : Byte) (hd : destination i = some (.num r))
      (hk : raisedKind i s = none) (h : exec i s = .next (s.writeReg r v).advance)
  | writesMem (o : Operand) (a : CellAddr) (v : Byte) (hi : i = .rstr o (.num a))
      (hk : raisedKind i s = none) (h : exec i s = .next (s.memWrite a v).advance)
  | raises (k : ErrorKind) (hk : raisedKind i s = some k) (h : exec i s = .next (s.raise k))
  | skips (hi : i = .skip) (h : exec i s = .next s.advance)
  | halts (hi : i = .noop) (h : exec i s = .next (s.setRun .halted))
  | jumps (t : Nat) (hi : i = .jmp t) (h : exec i s = .next (s.setPc t))
  | calls (t : Nat) (hi : i = .call t) (h : exec i s = .next ((s.push (s.pc + 1)).setPc t))
  | returns (t : Nat) (rest : List Nat) (hi : i = .ret) (hs : s.callStack = t :: rest)
      (h : exec i s = .next ((s.setCallStack rest).setPc t))

theorem exec_cases_three (i : Instr) (f : Byte → Byte → Byte) (a b c : Operand) (s : State)
    (hd : destination i = some c)
    (hk : raisedKind i s =
      if regOk a && regOk b && regOk c then none else some .invalidOperand)
    (he : exec i s = aluThree f a b c s) : ExecCase i s := by
  rcases aluThree_cases f a b c s with ⟨ra, rb, rc, h1, h2, h3, h⟩ | ⟨h1, h⟩
  · refine .writesReg rc _ (hd.trans ?_) (hk.trans ?_) (he.trans h)
    · rw [(regOf_eq_some_iff c rc).1 h3]
    · simp [regOk_of_regOf h1, regOk_of_regOf h2, regOk_of_regOf h3]
  · refine .raises .invalidOperand (hk.trans ?_) (he.trans h)
    simp [h1]

theorem exec_cases (i : Instr) (s : State) : ExecCase i s := by
  cases i with
  | skip => exact .skips rfl rfl
  | noop => exact .halts rfl rfl
  | add a b c => exact exec_cases_three _ (fun va vb => vb + va) a b c s rfl rfl rfl
  | sub a b c => exact exec_cases_three _ (fun va vb => vb - va) a b c s rfl rfl rfl
  | or a b c => exact exec_cases_three _ _ a b c s rfl rfl rfl
  | xor a b c => exact exec_cases_three _ _ a b c s rfl rfl rfl
  | and a b c => exact exec_cases_three _ _ a b c s rfl rfl rfl
  | not a =>
    rcases execNot_cases a s with ⟨ra, h1, h⟩ | ⟨h1, h⟩
    · refine .writesReg ra _ ?_ ?_ h
      · rw [destination, (regOf_eq_some_iff a ra).1 h1]
      · simp [raisedKind, regOk_of_regOf h1]
    · exact .raises _ (by simp [raisedKind, h1]) h
  | rsh a b =>
    rcases execRsh_cases a b s with ⟨ra, rb, h1, h2, h⟩ | ⟨h1, h⟩
    · refine .writesReg rb _ ?_ ?_ h
      · rw [destination, (regOf_eq_some_iff b rb).1 h2]
      · simp [raisedKind, regOk_of_regOf h1, regOk_of_regOf h2]
    · exact .raises _ (by simp [raisedKind, h1]) h
  | imm a v =>
    rcases execImm_cases a v s with ⟨ra, i, h1, rfl, h⟩ | ⟨h1, h⟩
    · refine .writesReg ra _ ?_ ?_ h
      · rw [destination, (regOf_eq_some_iff a ra).1 h1]
      · simp [raisedKind, regOk_of_regOf h1]
    · refine .raises .invalidOperand ?_ h
      cases v with
      | lit i =>
        have h2 : regOk a = false := h1.resolve_right (by simp)
        simp [raisedKind, h2]
      | bad => rfl
  | jmp t => exact .jumps t rfl rfl
  | jmpU => exact .raises _ rfl rfl
  | call t => exact .calls t rfl rfl
  | callU => exact .raises _ rfl rfl
  | ret =>
    rcases execRet_cases s with ⟨t, rest, h1, h⟩ | ⟨h1, h⟩
    · exact .returns t rest rfl h1 h
    · exact .raises .emptyCallStack (by simp [raisedKind, h1]) h
  | jmpx => exact .raises _ rfl rfl
  | rlod a m =>
    rcases execRlod_cases a m s with ⟨ra, cell, h1, h2, h⟩ | ⟨h1, h⟩
    · refine .writesReg ra _ ?_ ?_ h
      · rw [destination, (regOf_eq_some_iff a ra).1 h1]
      · simp [raisedKind, regOk_of_regOf h1, memOk_of_cellOf h2]
    · exact .raises _ (by simp [raisedKind, h1]) h
  | rstr a m =>
    rcases execRstr_cases a m s with ⟨ra, cell, h1, h2, h⟩ | ⟨h1, h⟩
    · refine .writesMem a cell _ ?_ ?_ h
      · rw [(cellOf_eq_some_iff m cell).1 h2]
      · simp [raisedKind, regOk_of_regOf h1, memOk_of_cellOf h2]
    · exact .raises _ (by simp [raisedKind, h1]) h
  | unknown => exact .raises _ rfl rfl

/-- The fatal error is RET's on an empty Call Stack, and no other's. -/
theorem raisedKind_emptyCallStack {i : Instr} {s : State}
    (h : raisedKind i s = some .emptyCallStack) : i = .ret ∧ s.callStack = [] := by
  cases i <;> try (simp [raisedKind] at h; done)
  case imm a v => cases v <;> simp [raisedKind] at h
  case ret =>
    refine ⟨rfl, ?_⟩
    by_contra hne
    simp [raisedKind, hne] at h

end Sys2Proof.Machine
end

