-- ==== Sys2Proof/Laws/Input.lean ====
section
/-! SUPPORT. Everything the input events other than a tick, a run of ticks, and the toolchain's shared operations can
do, said once. -/

namespace Sys2Proof.Machine

/-- Whatever the kind of an error, no storage changes. -/
theorem raise_keeps (s : State) (k : ErrorKind) :
    (s.raise k).x = s.x ∧ (s.raise k).mem = s.mem ∧ (s.raise k).callStack = s.callStack ∧
      (s.raise k).image = s.image ∧ (s.raise k).event = k.event := by
  cases k <;> exact ⟨rfl, rfl, rfl, rfl, rfl⟩

/-- `start` answers a next state exactly for the images that are not refused. -/
theorem start_eq_next_iff (im : Image) (s t : State) :
    start im s = .next t ↔ imageRefusal im = none ∧ t = s.load im := by
  unfold start
  cases imageRefusal im with
  | none => simp [eq_comm]
  | some r => simp

/-- `stop` changes the run state and the event output only. -/
theorem stop_eq (s : State) :
    s.stop = (if s.run = .running then s.setRun .idle else s).setEvent .none := by
  unfold State.stop
  cases h : s.run <;> simp

/-- A run of inputs that answers a next state passes through one after its first input. -/
theorem runInputs_cons_eq_next_iff (e : InputEvent) (es : List InputEvent) (s u : State) :
    runInputs (e :: es) s = .next u ↔ ∃ t, input e s = .next t ∧ runInputs es t = .next u := by
  simp only [runInputs]
  cases input e s <;> simp

/-- One tick more at the front of a run of ticks. -/
theorem ticks_succ_eq_next_iff (k : Nat) (s u : State) :
    ticks (k + 1) s = .next u ↔ ∃ t, step s = .next t ∧ ticks k t = .next u :=
  runInputs_cons_eq_next_iff .tick _ s u

/-- A declaration changes what its own name maps to and nothing else. -/
theorem lookupLabel_declareLabel (name k : Token) (n : Nat) (lt : LabelTable) :
    lookupLabel k (declareLabel name n lt) = if name = k then some n else lookupLabel k lt := by
  induction lt with
  | nil => simp [declareLabel, lookupLabel]
  | cons e lt ih =>
    obtain ⟨q, i⟩ := e
    simp only [declareLabel]
    by_cases hq : q = name
    · subst hq
      rw [if_pos rfl]
      simp only [lookupLabel]
      split <;> rfl
    · rw [if_neg hq]
      simp only [lookupLabel, ih]
      by_cases h2 : q = k
      · rw [if_pos h2, if_pos h2, if_neg (fun h => hq (h2.trans h.symm))]
      · rw [if_neg h2, if_neg h2]

/-- A line is assembled exactly when it has a decoded instruction that the assembler admits. -/
theorem asmLine_eq_some_iff (lt : LabelTable) (l : Line) (w : Word) :
    asmLine lt l = some w ↔
      ∃ i, decodeT lt l = some i ∧ i.assemblable = true ∧ encode i = w := by
  unfold asmLine
  cases decodeT lt l with
  | none => simp
  | some i =>
    simp only [asmWord, Option.some.injEq]
    by_cases h : i.assemblable = true <;> simp [h]

/-- A list of lines is refused exactly when one of them is. -/
theorem asmLines_eq_none_iff (lt : LabelTable) (lines : List Line) :
    asmLines lt lines = none ↔ ∃ l ∈ lines, asmLine lt l = none := by
  induction lines with
  | nil => simp [asmLines]
  | cons l ls ih =>
    simp only [asmLines, List.mem_cons, exists_eq_or_imp, ← ih]
    cases asmLine lt l <;> cases asmLines lt ls <;> simp

end Sys2Proof.Machine
end

