-- ==== Sys2Proof/Laws/Word.lean ====
section
/-! SUPPORT. The fields and the masked bits of the words of each format, and the opcode field. -/

namespace Sys2Proof

/-- bits[31:28], the opcode field of every format (30_encoding.md R80). -/
def opField (w : Word) : BitVec 4 := w.extractLsb' 28 4

/-- Two words that agree under a mask whose top four bits are set have the same opcode field. -/
theorem opField_of_masked {w m p : Word} (hm : opField m = 0xF#4) (h : w &&& m = p) :
    opField w = opField p := by
  subst h
  have h2 : opField (w &&& m) = opField w &&& opField m := BitVec.extractLsb'_and
  rw [h2, hm]
  exact (BitVec.and_allOnes (x := opField w)).symm

/-! ## Opcode fields -/

theorem opField_wordZ (op : BitVec 4) : opField (wordZ op) = op := by
  ext i hi
  interval_cases i <;> simp [opField, wordZ, place]

theorem opField_wordR3 (op : BitVec 4) (a b c : BitVec 8) : opField (wordR3 op a b c) = op := by
  ext i hi
  interval_cases i <;> simp [opField, wordR3, place]

theorem opField_wordR1 (op : BitVec 4) (a : BitVec 8) : opField (wordR1 op a) = op := by
  ext i hi
  interval_cases i <;> simp [opField, wordR1, place]

theorem opField_wordR2 (op : BitVec 4) (a b : BitVec 8) : opField (wordR2 op a b) = op := by
  ext i hi
  interval_cases i <;> simp [opField, wordR2, place]

theorem opField_wordI (op : BitVec 4) (a : BitVec 8) (v : BitVec 16) :
    opField (wordI op a v) = op := by
  ext i hi
  interval_cases i <;> simp [opField, wordI, place]

theorem opField_wordJ (tag : BitVec 2) (r : BitVec 1) (t : BitVec 16) :
    opField (wordJ tag r t) = 0xA#4 := by
  ext i hi
  interval_cases i <;> simp [opField, wordJ, place]

/-! ## Masked bits -/

theorem wordR3_masked (op : BitVec 4) (a b c : BitVec 8) :
    wordR3 op a b c &&& 0xF000000F#32 = place op 28 := by
  ext i hi
  interval_cases i <;> simp [wordR3, place]

theorem wordR1_masked (op : BitVec 4) (a : BitVec 8) :
    wordR1 op a &&& 0xF00FFFFF#32 = place op 28 := by
  ext i hi
  interval_cases i <;> simp [wordR1, place]

theorem wordR2_masked (op : BitVec 4) (a b : BitVec 8) :
    wordR2 op a b &&& 0xF0000FFF#32 = place op 28 := by
  ext i hi
  interval_cases i <;> simp [wordR2, place]

theorem wordI_masked (op : BitVec 4) (a : BitVec 8) (v : BitVec 16) :
    wordI op a v &&& 0xF000000F#32 = place op 28 := by
  ext i hi
  interval_cases i <;> simp [wordI, place]

theorem wordJ_masked (tag : BitVec 2) (r : BitVec 1) (t : BitVec 16) :
    wordJ tag r t &&& 0xFFF0000F#32 = wordJ tag r 0#16 := by
  ext i hi
  interval_cases i <;> simp [wordJ, place]

/-! ## Fields -/

theorem fieldA_wordR3 (op : BitVec 4) (a b c : BitVec 8) :
    fieldA (wordR3 op a b c) = .num a.toNat := by
  have h : (wordR3 op a b c).extractLsb' 20 8 = a := by
    ext i hi
    interval_cases i <;> simp [wordR3, place]
  rw [fieldA, h]

theorem fieldB_wordR3 (op : BitVec 4) (a b c : BitVec 8) :
    fieldB (wordR3 op a b c) = .num b.toNat := by
  have h : (wordR3 op a b c).extractLsb' 12 8 = b := by
    ext i hi
    interval_cases i <;> simp [wordR3, place]
  rw [fieldB, h]

theorem fieldC_wordR3 (op : BitVec 4) (a b c : BitVec 8) :
    fieldC (wordR3 op a b c) = .num c.toNat := by
  have h : (wordR3 op a b c).extractLsb' 4 8 = c := by
    ext i hi
    interval_cases i <;> simp [wordR3, place]
  rw [fieldC, h]

theorem fieldA_wordR1 (op : BitVec 4) (a : BitVec 8) : fieldA (wordR1 op a) = .num a.toNat := by
  have h : (wordR1 op a).extractLsb' 20 8 = a := by
    ext i hi
    interval_cases i <;> simp [wordR1, place]
  rw [fieldA, h]

theorem fieldA_wordR2 (op : BitVec 4) (a b : BitVec 8) :
    fieldA (wordR2 op a b) = .num a.toNat := by
  have h : (wordR2 op a b).extractLsb' 20 8 = a := by
    ext i hi
    interval_cases i <;> simp [wordR2, place]
  rw [fieldA, h]

theorem fieldB_wordR2 (op : BitVec 4) (a b : BitVec 8) :
    fieldB (wordR2 op a b) = .num b.toNat := by
  have h : (wordR2 op a b).extractLsb' 12 8 = b := by
    ext i hi
    interval_cases i <;> simp [wordR2, place]
  rw [fieldB, h]

theorem fieldA_wordI (op : BitVec 4) (a : BitVec 8) (v : BitVec 16) :
    fieldA (wordI op a v) = .num a.toNat := by
  have h : (wordI op a v).extractLsb' 20 8 = a := by
    ext i hi
    interval_cases i <;> simp [wordI, place]
  rw [fieldA, h]

theorem field16_wordI (op : BitVec 4) (a : BitVec 8) (v : BitVec 16) :
    field16 (wordI op a v) = v.toNat := by
  have h : (wordI op a v).extractLsb' 4 16 = v := by
    ext i hi
    interval_cases i <;> simp [wordI, place]
  rw [field16, h]

theorem field16_wordJ (tag : BitVec 2) (r : BitVec 1) (t : BitVec 16) :
    field16 (wordJ tag r t) = t.toNat := by
  have h : (wordJ tag r t).extractLsb' 4 16 = t := by
    ext i hi
    interval_cases i <;> simp [wordJ, place]
  rw [field16, h]

/-- The field of an operand that fits it is the operand (30_encoding.md R91). -/
theorem field_toNat_of_wf {o : Operand} (h : o.wf = true) : Operand.num o.field.toNat = o := by
  cases o with
  | num n =>
    simp only [Operand.wf, decide_eq_true_eq] at h
    simp only [Operand.field, if_pos h, BitVec.toNat_ofNat, Operand.num.injEq]
    omega
  | bad => simp [Operand.wf] at h

end Sys2Proof
end

