-- ==== Sys2Proof/Laws/PerInstr.lean ====
section
/-! SUPPORT. A family of facts about every instruction as syntax: the opcode field of its word is the opcode
number of 30_encoding.md R82, whatever its operands are. -/

namespace Sys2Proof.Laws.EncodedOpcode

/-- The opcode numbers of 30_encoding.md R82. -/
def opcodeNumber : Instr → BitVec 4
  | .skip => 0x0
  | .noop => 0x1
  | .add _ _ _ => 0x2
  | .sub _ _ _ => 0x3
  | .or _ _ _ => 0x4
  | .xor _ _ _ => 0x5
  | .and _ _ _ => 0x6
  | .not _ => 0x7
  | .rsh _ _ => 0x8
  | .imm _ _ => 0x9
  | .jmp _ => 0xA
  | .jmpU => 0xA
  | .call _ => 0xA
  | .callU => 0xA
  | .ret => 0xA
  | .jmpx => 0xA
  | .rlod _ _ => 0xB
  | .rstr _ _ => 0xC
  | .unknown => 0xF

/-- The opcode field of the instruction's word. -/
def Statement (i : Instr) : Prop := opField (encode i) = opcodeNumber i

theorem skip : Statement .skip := opField_wordZ _
theorem noop : Statement .noop := opField_wordZ _
theorem add (a b c : Operand) : Statement (.add a b c) := opField_wordR3 _ _ _ _
theorem sub (a b c : Operand) : Statement (.sub a b c) := opField_wordR3 _ _ _ _
theorem or (a b c : Operand) : Statement (.or a b c) := opField_wordR3 _ _ _ _
theorem xor (a b c : Operand) : Statement (.xor a b c) := opField_wordR3 _ _ _ _
theorem and (a b c : Operand) : Statement (.and a b c) := opField_wordR3 _ _ _ _
theorem not (a : Operand) : Statement (.not a) := opField_wordR1 _ _
theorem rsh (a b : Operand) : Statement (.rsh a b) := opField_wordR2 _ _ _
theorem imm (a : Operand) (v : Literal) : Statement (.imm a v) := by
  cases v <;> exact opField_wordI _ _ _
theorem jmp (t : Nat) : Statement (.jmp t) := opField_wordJ _ _ _
theorem jmpU : Statement .jmpU := opField_wordJ _ _ _
theorem call (t : Nat) : Statement (.call t) := opField_wordJ _ _ _
theorem callU : Statement .callU := opField_wordJ _ _ _
theorem ret : Statement .ret := opField_wordJ _ _ _
theorem jmpx : Statement .jmpx := opField_wordJ _ _ _
theorem rlod (a m : Operand) : Statement (.rlod a m) := opField_wordR2 _ _ _
theorem rstr (a m : Operand) : Statement (.rstr a m) := opField_wordR2 _ _ _
theorem unknown : Statement .unknown := opField_wordZ _

end Sys2Proof.Laws.EncodedOpcode
end

