-- ==== Sys2Proof/Laws/Text.lean ====
section
/-! SUPPORT. Trimming does not change the tokens of a line, so `decodeT` can be read off the tokens. -/

namespace Sys2Proof

theorem tokensFrom_append_space (cur : Token) (l : Line) {c : Char} (h : isSpace c = true) :
    tokensFrom cur (l ++ [c]) = tokensFrom cur l := by
  induction l generalizing cur with
  | nil =>
    simp only [List.nil_append, tokensFrom, h, if_true]
  | cons d ds ih =>
    simp only [List.cons_append, tokensFrom, ih]

theorem tokensFrom_append_spaces (cur : Token) (l ws : Line) (h : ∀ c ∈ ws, isSpace c = true) :
    tokensFrom cur (l ++ ws) = tokensFrom cur l := by
  induction ws generalizing l with
  | nil => simp
  | cons c cs ih =>
    rw [show l ++ c :: cs = (l ++ [c]) ++ cs by simp, ih _ (fun d hd => h d (by simp [hd])),
      tokensFrom_append_space _ _ (h c (by simp))]

theorem tokens_dropWhile (l : Line) : tokens (l.dropWhile isSpace) = tokens l := by
  induction l with
  | nil => rfl
  | cons c cs ih =>
    by_cases hc : isSpace c = true
    · rw [List.dropWhile_cons_of_pos hc, ih]
      simp [tokens, tokensFrom, hc]
    · rw [List.dropWhile_cons_of_neg hc]

theorem tokens_trimEnd (l : Line) : tokens (l.reverse.dropWhile isSpace).reverse = tokens l := by
  have h := List.takeWhile_append_dropWhile (p := isSpace) (l := l.reverse)
  have h2 : l = (l.reverse.dropWhile isSpace).reverse ++ (l.reverse.takeWhile isSpace).reverse := by
    rw [← List.reverse_append, h, List.reverse_reverse]
  conv_rhs => rw [h2]
  refine (tokensFrom_append_spaces [] _ _ fun c hc => ?_).symm
  rw [List.mem_reverse] at hc
  exact List.mem_takeWhile_imp hc

/-- Trimming removes no token. -/
theorem tokens_trim (l : Line) : tokens (trim l) = tokens l := by
  rw [trim, tokens_trimEnd, tokens_dropWhile]

/-- The token being read stays the first one. -/
theorem tokensFrom_cons_prefix (cur : Token) (h : cur ≠ []) (l : Line) :
    ∃ suffix rest, tokensFrom cur l = (cur ++ suffix) :: rest := by
  induction l generalizing cur with
  | nil => exact ⟨[], [], by simp [tokensFrom, h]⟩
  | cons c cs ih =>
    by_cases hc : isSpace c = true
    · exact ⟨[], tokensFrom [] cs, by simp [tokensFrom, hc, h]⟩
    · obtain ⟨suffix, rest, hr⟩ := ih (cur ++ [c]) (by simp)
      exact ⟨c :: suffix, rest, by simp [tokensFrom, hc, hr]⟩

theorem dropWhile_head_not_space (l : Line) {c : Char} {cs : Line}
    (h : l.dropWhile isSpace = c :: cs) : isSpace c = false := by
  have h2 := List.head?_dropWhile_not isSpace l
  rw [h] at h2
  simpa using h2

/-- The trimmed content does not begin with whitespace. -/
theorem trim_head_not_space (l : Line) {c : Char} {cs : Line} (h : trim l = c :: cs) :
    isSpace c = false := by
  unfold trim at h
  generalize hd : l.dropWhile isSpace = d at h
  cases d with
  | nil => simp at h
  | cons e es =>
    have he := dropWhile_head_not_space l hd
    have h3 : (e :: es).reverse.dropWhile isSpace = (c :: cs).reverse := by
      rw [← h, List.reverse_reverse]
    have h4 : (c :: cs).reverse <:+ (e :: es).reverse := h3 ▸ List.dropWhile_suffix _
    have h5 : (c :: cs) <+: (e :: es) := List.reverse_suffix.1 h4
    obtain ⟨rest, hrest⟩ := h5
    simp at hrest
    rw [hrest.1]
    exact he

/-- A line without tokens is SKIP. -/
theorem decodeT_of_no_tokens (lt : LabelTable) (l : Line) (h : tokens l = []) :
    decodeT lt l = some .skip := by
  unfold decodeT
  split
  · rfl
  · rename_i c cs hc
    have hs := trim_head_not_space l hc
    rw [← tokens_trim, hc] at h
    obtain ⟨suffix, rest, hr⟩ := tokensFrom_cons_prefix [c] (by simp) cs
    simp [tokens, tokensFrom, hs, hr] at h

/-- The first token of a line begins with the first character of its trimmed content. -/
theorem tokens_eq_cons_of_trim (l : Line) {c : Char} {cs : Line} (h : trim l = c :: cs) :
    ∃ t rest, tokens l = (c :: t) :: rest := by
  have hs := trim_head_not_space l h
  obtain ⟨suffix, rest, hr⟩ := tokensFrom_cons_prefix [c] (by simp) cs
  refine ⟨suffix, rest, ?_⟩
  rw [← tokens_trim, h]
  simp [tokens, tokensFrom, hs, hr]

/-- A line whose first token does not begin with `.` decodes by its tokens. -/
theorem decodeT_of_tokens (lt : LabelTable) (l : Line) {c : Char} {t : Token} {ops : List Token}
    (h : tokens l = (c :: t) :: ops) (hc : c ≠ '.') :
    decodeT lt l = decodeTokens lt ((c :: t) :: ops) := by
  unfold decodeT
  split
  · rename_i ht
    rw [← tokens_trim, ht] at h
    simp [tokens, tokensFrom] at h
  · rename_i d ds hd
    obtain ⟨t', rest, ht⟩ := tokens_eq_cons_of_trim l hd
    rw [ht] at h
    obtain ⟨h1, -⟩ := List.cons.inj h
    obtain ⟨h2, -⟩ := List.cons.inj h1
    have hdc : d ≠ '.' := h2 ▸ hc
    rw [if_neg hdc, ← hd, tokens_trim, ht, h]

/-- A line whose first token begins with `.` is SKIP. -/
theorem decodeT_of_label (lt : LabelTable) (l : Line) {t : Token} {ops : List Token}
    (h : tokens l = ('.' :: t) :: ops) : decodeT lt l = some .skip := by
  unfold decodeT
  split
  · rfl
  · rename_i d ds hd
    obtain ⟨t', rest, ht⟩ := tokens_eq_cons_of_trim l hd
    rw [ht] at h
    obtain ⟨h1, -⟩ := List.cons.inj h
    obtain ⟨h2, -⟩ := List.cons.inj h1
    rw [if_pos h2]

/-- The decoded instruction of a line is a function of its tokens. -/
theorem decodeT_eq_of_tokens (lt : LabelTable) (l : Line) :
    decodeT lt l =
      match tokens l with
      | [] => some .skip
      | [] :: _ => some .skip
      | (c :: t) :: ops => if c = '.' then some .skip else decodeTokens lt ((c :: t) :: ops) := by
  split
  · rename_i h
    exact decodeT_of_no_tokens lt l h
  · rename_i h
    cases ht : trim l with
    | nil =>
      rw [← tokens_trim, ht] at h
      simp [tokens, tokensFrom] at h
    | cons c cs =>
      obtain ⟨t, r, h2⟩ := tokens_eq_cons_of_trim l ht
      rw [h2] at h
      simp at h
  · rename_i c t ops h
    split
    · rename_i hc
      subst hc
      exact decodeT_of_label lt l h
    · rename_i hc
      exact decodeT_of_tokens lt l h hc

/-- A line is its trimmed content between whitespace, and the trimmed content does not end in whitespace. -/
theorem eq_space_append_trim (l : Line) :
    ∃ before after : Line, (∀ c ∈ before, isSpace c = true) ∧ (∀ c ∈ after, isSpace c = true) ∧
      (∀ c, (trim l).getLast? = some c → isSpace c = false) ∧ l = before ++ (trim l ++ after) := by
  refine ⟨l.takeWhile isSpace, ((l.dropWhile isSpace).reverse.takeWhile isSpace).reverse,
    fun c hc => List.mem_takeWhile_imp hc,
    fun c hc => List.mem_takeWhile_imp (List.mem_reverse.1 hc), fun c hc => ?_, ?_⟩
  · unfold trim at hc
    rw [List.getLast?_reverse] at hc
    have h := List.head?_dropWhile_not isSpace (l.dropWhile isSpace).reverse
    rw [hc] at h
    simpa using h
  · unfold trim
    rw [← List.reverse_append, List.takeWhile_append_dropWhile, List.reverse_reverse,
      List.takeWhile_append_dropWhile]

/-- The command tokens of a jump line. -/
theorem commandOf_eq_jmp_iff (cmd : Token) :
    commandOf cmd = some .jmp ↔ upperToken cmd = "JMP".toList := by
  unfold commandOf
  refine ⟨fun h => ?_, fun h => by rw [h]; decide⟩
  split at h
  · rename_i row hr
    have h1 := List.find?_some hr
    have h2 := List.mem_of_find?_eq_some hr
    simp only [Option.some.injEq] at h
    simp only [commandTable, List.mem_cons, List.not_mem_nil, or_false] at h2
    rcases h2 with rfl | rfl | rfl | rfl | rfl | rfl | rfl | rfl | rfl | rfl | rfl | rfl <;>
      first
        | (cases h; done)
        | (simp at h1; exact h1.symm)
  · cases h

/-- A character that is no digit ends every decimal. -/
theorem decimalFrom_eq_none (t : Token) {c : Char} (acc : Nat) (hc : c ∈ t)
    (hd : digitValue c = none) : decimalFrom acc t = none := by
  induction t generalizing acc with
  | nil => cases hc
  | cons e es ih =>
    simp only [decimalFrom]
    rcases List.mem_cons.1 hc with rfl | hc
    · rw [hd]
    · cases digitValue e with
      | none => rfl
      | some x => exact ih _ hc

/-- A token spelled with a minus sign is no decimal. -/
theorem decimal_minus (t : Token) : decimal ('-' :: t) = none :=
  decimalFrom_eq_none _ 0 (List.mem_cons_self ..) (by decide)

/-- A target has no resolution exactly when it is no label and spelled as a negative number (30_encoding.md R78). -/
theorem resolveTarget_eq_none_iff (lt : LabelTable) (k : Token) :
    resolveTarget lt k = none ↔ lookupLabel k lt = none ∧
      ∃ (digits : Token) (n : Nat), k = '-' :: digits ∧ decimal digits = some n := by
  unfold resolveTarget
  cases lookupLabel k lt with
  | some t => simp
  | none =>
    simp only [true_and]
    cases k with
    | nil => simp [decimal, negativeDecimal]
    | cons c cs =>
      by_cases hc : c = '-'
      · subst hc
        simp only [decimal_minus, negativeDecimal, if_true]
        cases hd : decimal cs <;> simp [hd]
      · cases hd : decimal (c :: cs) <;> simp [negativeDecimal, hc]

end Sys2Proof
end

