-- ==== Sys2Proof/Tests/Slice0.lean ====
section
/-! SUPPORT. The model's own tests. Every expected value is read from spec/95_test_vectors.md (the vector is named) or
worked out by hand from a rule. The witnesses at the end show that the hypotheses of the statements can be met, each
clause at a boundary of its range. -/

namespace Sys2Proof.Tests

open Sys2Proof.Machine

/-! ## Well-formedness: one ill-formed term for each check -/

theorem test_wf_refuses_operand_256 : (Instr.not (.num 256)).wf = false := by decide
theorem test_wf_refuses_bad_operand : (Instr.add (.num 0) .bad (.num 1)).wf = false := by decide
theorem test_wf_refuses_bad_first_operand : (Instr.rsh .bad (.num 1)).wf = false := by decide
theorem test_wf_refuses_bad_third_operand : (Instr.xor (.num 0) (.num 1) .bad).wf = false := by
  decide
theorem test_wf_refuses_bad_address : (Instr.rstr (.num 0) .bad).wf = false := by decide
theorem test_wf_refuses_negative_literal : (Instr.imm (.num 0) (.lit (-1))).wf = false := by decide
theorem test_wf_refuses_literal_65536 : (Instr.imm (.num 0) (.lit 65536)).wf = false := by decide
theorem test_wf_refuses_bad_literal : (Instr.imm (.num 0) .bad).wf = false := by decide
theorem test_wf_refuses_jump_target_65536 : (Instr.jmp 65536).wf = false := by decide
theorem test_wf_refuses_call_target_65536 : (Instr.call 65536).wf = false := by decide
theorem test_wf_admits_the_largest_operands :
    (Instr.imm (.num 255) (.lit 65535)).wf = true ∧ (Instr.jmp 65535).wf = true := by decide
theorem test_assembler_refuses_low_literal :
    (Instr.imm (.num 0) (.lit (-32769))).assemblable = false := by decide
theorem test_assembler_refuses_high_literal :
    (Instr.imm (.num 0) (.lit 65536)).assemblable = false := by decide
theorem test_assembler_refuses_jump_target_65536 :
    asmWord (.jmp 65536) = none ∧ asmWord (.call 65536) = none := by decide

/-! ## Decoding: one word or more for every constructor, written out from the formats of R81 -/

theorem test_decode_skip : decodeW 0x00000000#32 = .skip := by decide
theorem test_decode_noop : decodeW 0x10000000#32 = .noop := by decide
/-- Bit by bit: op 0010, a 00000000, b 00000001, c 00000010, low nibble 0000 (VD5). -/
theorem test_decode_add :
    decodeW 0b0010_00000000_00000001_00000010_0000#32 = .add (.num 0) (.num 1) (.num 2) := by decide
theorem test_decode_sub : decodeW 0x30706050#32 = .sub (.num 7) (.num 6) (.num 5) := by decide
theorem test_decode_or : decodeW 0x40001020#32 = .or (.num 0) (.num 1) (.num 2) := by decide
theorem test_decode_xor : decodeW 0x50001020#32 = .xor (.num 0) (.num 1) (.num 2) := by decide
theorem test_decode_and : decodeW 0x60001020#32 = .and (.num 0) (.num 1) (.num 2) := by decide
theorem test_decode_not : decodeW 0x70400000#32 = .not (.num 4) := by decide
theorem test_decode_rsh : decodeW 0x80203000#32 = .rsh (.num 2) (.num 3) := by decide
/-- Bit by bit: op 1001, a 00000111, imm16 0001001000110100, low nibble 0000 (VD12). -/
theorem test_decode_imm :
    decodeW 0b1001_00000111_0001001000110100_0000#32 = .imm (.num 7) (.lit 0x1234) := by decide
/-- Bit by bit: op 1010, tag 00, R 1, 00000, target 7, low nibble 0000 (VD14). -/
theorem test_decode_jmp : decodeW 0b1010_00_1_00000_0000000000000111_0000#32 = .jmp 7 := by decide
theorem test_decode_jmpU : decodeW 0xA0000000#32 = .jmpU := by decide
/-- Bit by bit: op 1010, tag 10, R 1, 00000, target 5, low nibble 0000 (VD19). -/
theorem test_decode_call : decodeW 0b1010_10_1_00000_0000000000000101_0000#32 = .call 5 := by decide
theorem test_decode_callU : decodeW 0xA8000000#32 = .callU := by decide
/-- Bit by bit: op 1010, tag 01, R 0, nothing else (VD21). -/
theorem test_decode_ret : decodeW 0b1010_01_0_00000_0000000000000000_0000#32 = .ret := by decide
theorem test_decode_jmpx : decodeW 0xAC000000#32 = .jmpx := by decide
/-- Bit by bit: op 1011, a 00000001, m 00001111, low bits 0 (VD26). -/
theorem test_decode_rlod :
    decodeW 0b1011_00000001_00001111_000000000000#32 = .rlod (.num 1) (.num 15) := by decide
theorem test_decode_rstr : decodeW 0xC0003000#32 = .rstr (.num 0) (.num 3) := by decide
/-- VD2, VD4, VD6, VD9, VD11, VD16, VD18, VD22, VD23, VD25, VD29, VD30. -/
theorem test_decode_reserved : [0x00000001#32, 0x10000001#32, 0x20001021#32, 0x70401000#32,
    0x80203010#32, 0xA3000070#32, 0xA0000010#32, 0xA4000010#32, 0xA6000000#32, 0xAE000000#32,
    0xC0003001#32, 0xD0000000#32, 0xE1234567#32, 0xF0000000#32, 0xFFFFFFFF#32].all
      (fun w => decodeW w == .unknown && reservedWord w) = true := by decide

/-! ## The assembler (section 2.1) -/

/-- The word of one line, with a Label Table. -/
def asm (text : String) (lt : LabelTable := []) : Option Word := asmLine lt text.toList

theorem test_asm_imm : [asm "IMM 0 5", asm "imm 0 5", asm "  IMM   0    5  ", asm "IMM 3 300",
    asm "IMM 3 -1", asm "IMM 3 -32768", asm "IMM 3 65535", asm "IMM 3 65536", asm "IMM 3 007"] =
    [some 0x90000050, some 0x90000050, some 0x90000050, some 0x903012C0, some 0x903FFFF0,
      some 0x90380000, some 0x903FFFF0, none, some 0x90300070] := by decide
theorem test_asm_imm_malformed : [asm "IMM 2", asm "IMM 2 x", asm "IMM 2 0x10", asm "IMM 2 +5",
    asm "IMM 9 1", asm "IMM -1 1", asm "IMM 300 1"] =
    [some 0x9FF00000, some 0x9FF00000, some 0x9FF00000, some 0x9FF00000, some 0x90900010,
      some 0x9FF00010, some 0x9FF00010] := by decide
theorem test_asm_alu : [asm "ADD 0 1 2", asm "sub 7 6 5", asm "OR 0 1 2", asm "XOR 0 1 2",
    asm "AND 0 1 2", asm "ADD 0 1", asm "ADD r0 r1 r2", asm "ADD 0 1 2 3", asm "NOT 4", asm "NOT",
    asm "RSH 2 3"] =
    [some 0x20001020, some 0x30706050, some 0x40001020, some 0x50001020, some 0x60001020,
      some 0x20001FF0, some 0x2FFFFFF0, some 0x20001020, some 0x70400000, some 0x7FF00000,
      some 0x80203000] := by decide
theorem test_asm_memory : [asm "RLOD 1 15", asm "RLOD 1 -1", asm "RSTR 0 3", asm "RSTR 0 16"] =
    [some 0xB010F000, some 0xB01FF000, some 0xC0003000, some 0xC0010000] := by decide
theorem test_asm_skip_noop : [asm "", asm "   ", asm "\t", asm ".loop", asm "  .loop", asm ".",
    asm ".two words", asm "NOOP", asm "NOOP 5"] =
    [some 0, some 0, some 0, some 0, some 0, some 0, some 0, some 0x10000000,
      some 0x10000000] := by decide
theorem test_asm_jump : [asm "JMP 00 loop" [("loop".toList, 0)], asm "JMP 00 7", asm "JMP 00 65535",
    asm "JMP 00 65536", asm "JMP 00 -1", asm "JMP 00 3" [("3".toList, 4)],
    asm "JMP 00 Loop" [("loop".toList, 0)], asm "JMP 10 sub" [("sub".toList, 5)],
    asm "JMP 10 nowhere", asm "JMP 01 anything"] =
    [some 0xA2000000, some 0xA2000070, some 0xA20FFFF0, none, none, some 0xA2000040,
      some 0xA0000000, some 0xAA000050, some 0xA8000000, some 0xA4000000] := by decide
theorem test_asm_jmpx : [asm "JMP", asm "JMP 00", asm "JMP 10", asm "JMP 11 x", asm "JMP 0 5",
    asm "JMP 1", asm "JMP 2 5", asm "JMP loop"].all (· == some 0xAC000000) = true := by decide
theorem test_asm_unknown : [asm "MOV 1 2", asm "CALL sub", asm "RET", asm "HALT", asm "; note",
    asm "# note", asm "ADD,0,1,2"].all (· == some 0xF0000000) = true := by decide
/-- VE36: the declared names; D18: the last declaration of a name wins (VC16). -/
theorem test_label_names : labelName "  .loop".toList = some "loop".toList ∧
    labelName ".".toList = some [] ∧ labelName ".two words".toList = some "two words".toList ∧
    lookupLabel ['a'] (labelTable [".b".toList, ".a".toList, [], [], ".a".toList]) = some 4 := by
  decide
/-- E9: the text with a final line feed has four lines. -/
theorem test_assemble : assemble "IMM 0 5\nIMM 1 3\nADD 0 1 2\n".toList =
    some [0x90000050, 0x90100030, 0x20001020, 0] := by decide

/-! ## One tick of every instruction (sections 2.3 to 2.7) -/

/-- A running core with these registers and Call Stack, its pc at `n`, and `M[0] = 9`, `M[15] = 0xAB`. -/
def at_ (x : Vector Byte 8) (stack : List Nat) (n : Nat) : State :=
  { State.reset with x := x, mem := [(0, 9), (15, 0xAB)], callStack := stack, pc := n, run := .running }

/-- What a test looks at after a tick. -/
structure Seen where
  x : List Byte
  mem : Memory
  callStack : List Nat
  pc : Nat
  run : RunState
  event : Event
  deriving DecidableEq, Repr

/-- One tick on word `w`. -/
def tick (w : Nat) (s : State) : Option Seen :=
  match step (s.withFetchWord 32 w) with
  | .next t => some ⟨t.x.toList, t.mem, t.callStack, t.pc, t.run, t.event⟩
  | .fault _ => none
  | .refused _ => none

/-- What a tick leaves that only writes a register or raises a recoverable error at index 2. -/
def leaves (x : List Byte) (e : Event) : Option Seen :=
  some ⟨x, [(0, 9), (15, 0xAB)], [4], 3, .running, e⟩

/-- VA25's registers. -/
def upTo8 : Vector Byte 8 := #v[1, 2, 3, 4, 5, 6, 7, 8]

/-- VA2: 200 + 100 wraps to 44. -/
theorem test_add_wraps : tick 0x20001020 (at_ #v[200, 100, 0, 0, 0, 0, 0, 0] [4] 2) =
    leaves [200, 100, 44, 0, 0, 0, 0, 0] .none := by decide
/-- VA25, VA26, VA27. -/
theorem test_add_checks_all_three_operands : [0x20001080, 0x20801020, 0x20008020].all (fun w =>
    tick w (at_ upTo8 [4] 2) == leaves [1, 2, 3, 4, 5, 6, 7, 8] .invalidOperand) = true := by decide
/-- VA7, VA9: the first operand is taken from the second; the destination may be a source. -/
theorem test_sub : tick 0x30001020 (at_ #v[5, 3, 0, 0, 0, 0, 0, 0] [4] 2) =
      leaves [5, 3, 254, 0, 0, 0, 0, 0] .none ∧
    tick 0x30100000 (at_ #v[0, 1, 0, 0, 0, 0, 0, 0] [4] 2) =
      leaves [255, 1, 0, 0, 0, 0, 0, 0] .none := by decide
/-- VA12. -/
theorem test_or : tick 0x40001020 (at_ #v[0xF0, 0x3C, 0, 0, 0, 0, 0, 0] [4] 2) =
    leaves [0xF0, 0x3C, 0xFC, 0, 0, 0, 0, 0] .none := by decide
/-- VA13. -/
theorem test_xor : tick 0x50001020 (at_ #v[0xF0, 0x3C, 0, 0, 0, 0, 0, 0] [4] 2) =
    leaves [0xF0, 0x3C, 0xCC, 0, 0, 0, 0, 0] .none := by decide
/-- VA14. -/
theorem test_and : tick 0x60001020 (at_ #v[0xF0, 0x3C, 0, 0, 0, 0, 0, 0] [4] 2) =
    leaves [0xF0, 0x3C, 0x30, 0, 0, 0, 0, 0] .none := by decide
/-- VA18, VA30. -/
theorem test_not : tick 0x70400000 (at_ #v[0, 0, 0, 0, 0x0F, 0, 0, 0] [4] 2) =
      leaves [0, 0, 0, 0, 0xF0, 0, 0, 0] .none ∧
    tick 0x70800000 (at_ upTo8 [4] 2) = leaves [1, 2, 3, 4, 5, 6, 7, 8] .invalidOperand := by decide
/-- VA21, VA31. -/
theorem test_rsh : tick 0x80203000 (at_ #v[0, 0, 0x81, 0, 0, 0, 0, 0] [4] 2) =
      leaves [0, 0, 0x81, 0x40, 0, 0, 0, 0] .none ∧
    tick 0x80800000 (at_ upTo8 [4] 2) = leaves [1, 2, 3, 4, 5, 6, 7, 8] .invalidOperand := by decide
/-- VI5, VI11. -/
theorem test_imm : tick 0x903012C0 (at_ #v[0, 0, 0, 9, 0, 0, 0, 0] [4] 2) =
      leaves [0, 0, 0, 44, 0, 0, 0, 0] .none ∧
    tick 0x90800010 (at_ upTo8 [4] 2) = leaves [1, 2, 3, 4, 5, 6, 7, 8] .invalidOperand := by decide
/-- VI15: at Level T the literal has no bound. -/
theorem test_imm_level_t : decodeT [] "IMM 3 1000000".toList = some (.imm (.num 3) (.lit 1000000)) ∧
    literalByte (.lit 1000000) = some 64 ∧ literalByte (.lit (-128)) = some 128 := by decide
/-- VC2. -/
theorem test_jmp : tick 0xA2000070 (at_ upTo8 [4] 2) =
    some ⟨[1, 2, 3, 4, 5, 6, 7, 8], [(0, 9), (15, 0xAB)], [4], 7, .running, .none⟩ := by decide
/-- VC4. -/
theorem test_jmpU : tick 0xA0000000 (at_ upTo8 [4] 2) =
    leaves [1, 2, 3, 4, 5, 6, 7, 8] .unresolvedTarget := by decide
/-- VC6: the index after the call is pushed. -/
theorem test_call : tick 0xAA000090 (at_ upTo8 [2] 6) =
    some ⟨[1, 2, 3, 4, 5, 6, 7, 8], [(0, 9), (15, 0xAB)], [7, 2], 9, .running, .none⟩ := by decide
/-- VC7: nothing is pushed. -/
theorem test_callU : tick 0xA8000000 (at_ upTo8 [4] 2) =
    leaves [1, 2, 3, 4, 5, 6, 7, 8] .unresolvedTarget := by decide
/-- VC8. -/
theorem test_ret : tick 0xA4000000 (at_ upTo8 [7, 2] 11) =
    some ⟨[1, 2, 3, 4, 5, 6, 7, 8], [(0, 9), (15, 0xAB)], [2], 7, .running, .none⟩ := by decide
/-- VC10. -/
theorem test_ret_on_empty_stack : tick 0xA4000000 (at_ upTo8 [] 0) =
    some ⟨[1, 2, 3, 4, 5, 6, 7, 8], [(0, 9), (15, 0xAB)], [], 0, .halted, .emptyCallStack⟩ := by decide
/-- VC11. -/
theorem test_jmpx : tick 0xAC000000 (at_ upTo8 [4] 2) =
    leaves [1, 2, 3, 4, 5, 6, 7, 8] .invalidOperand := by decide
/-- VM1. -/
theorem test_rlod : tick 0xB010F000 (at_ #v[0, 0, 0, 0, 0, 0, 0, 0] [4] 2) =
    leaves [0, 0xAB, 0, 0, 0, 0, 0, 0] .none := by decide
/-- VM7, VM10: address 16 does not wrap to 0. -/
theorem test_rlod_out_of_range : [0xB0110000, 0xB01FF000, 0xB0800000].all (fun w =>
    tick w (at_ upTo8 [4] 2) == leaves [1, 2, 3, 4, 5, 6, 7, 8] .invalidOperand) = true := by decide
/-- VM3: the list of cells stays in canonical order. -/
theorem test_rstr : tick 0xC0003000 (at_ #v[8, 0, 0, 0, 0, 0, 0, 0] [4] 2) =
    some ⟨[8, 0, 0, 0, 0, 0, 0, 0], [(0, 9), (3, 8), (15, 0xAB)], [4], 3, .running, .none⟩ := by decide
/-- R192 and the canonical form: storing 0 removes the entry; VM6. -/
theorem test_rstr_zero_and_out_of_range :
    tick 0xC0000000 (at_ #v[0, 0, 0, 0, 0, 0, 0, 0] [4] 2) =
      some ⟨[0, 0, 0, 0, 0, 0, 0, 0], [(15, 0xAB)], [4], 3, .running, .none⟩ ∧
    tick 0xC0010000 (at_ upTo8 [4] 2) = leaves [1, 2, 3, 4, 5, 6, 7, 8] .invalidOperand := by decide
/-- VS13. -/
theorem test_skip : tick 0 (at_ upTo8 [4] 2) = leaves [1, 2, 3, 4, 5, 6, 7, 8] .none := by decide
/-- VS11: the pc is held and no event is reported. -/
theorem test_noop : tick 0x10000000 (at_ upTo8 [4] 1) =
    some ⟨[1, 2, 3, 4, 5, 6, 7, 8], [(0, 9), (15, 0xAB)], [4], 1, .halted, .none⟩ := by decide
/-- VS14, VS15. -/
theorem test_unknown : [0xF0000000, 0xE1234567].all (fun w =>
    tick w (at_ upTo8 [4] 2) == leaves [1, 2, 3, 4, 5, 6, 7, 8] .unknownInstruction) = true := by decide

/-! ## Input events (section 2.3) -/

/-- VS2: an empty image ends at once. -/
theorem test_empty_image : runInputs [.start (.words []), .tick] State.reset =
    .next { State.reset with run := .halted, event := .programFinished } := rfl
/-- VS6, VS8: `stop` keeps the state, `start` keeps the registers and empties the Call Stack. -/
theorem test_stop_start : input .stop (at_ upTo8 [4] 2) = .next { at_ upTo8 [4] 2 with run := .idle } ∧
    input (.start (.words [0])) (at_ upTo8 [4] 2) =
      .next { at_ upTo8 [] 0 with image := .words [0] } := ⟨rfl, rfl⟩
/-- VE41 in a program: refused at `start` (R94). -/
theorem test_start_refuses_negative_target :
    input (startText "JMP 00 -1".toList) State.reset = .refused .negativeTarget := rfl
/-- D21: the order of simultaneous inputs. -/
theorem test_clock_order : clockInputs true (some (.words [])) true true =
    [.reset, .start (.words []), .stop, .tick] := by decide
/-- The number of the table's words: bit 0 is bit 0 of the word; SKIP's row is the word 0. -/
theorem test_table_words : decodeTableWord 32 0xA2000070 = some (.jmp 7) ∧
    decodeTableWord 32 0 = some .skip ∧ decodeTableWord 40 0 = none ∧
    decodeTableWord 32 (2 ^ 32) = none := by decide
/-- 40_sequencer.md R116: the dumps. -/
theorem test_dumps : (at_ upTo8 [] 0).regDump = [1, 2, 3, 4, 5, 6, 7, 8] ∧
    (at_ upTo8 [] 0).memDump = [9, 0, 0, 0, 0, 0, 0, 0, 0, 0, 0, 0, 0, 0, 0, 0xAB] := by decide

/-! ## Witnesses: the hypotheses of the statements, met together

One theorem for each clause that has hypotheses, named after the statement. -/

/-- A running core at Level W with this program, its pc at `n`. -/
def coreW (P : List Word) (stack : List Nat) (n : Nat) : State :=
  { at_ upTo8 stack n with image := .words P }

/-- A running core at Level T with these lines, its pc at `n`. -/
def coreT (lines : List Line) (n : Nat) : State :=
  { at_ upTo8 [4] n with image := .text lines (labelTable lines) }

/-- What the hypotheses of `LineDecodes` ask of a line. -/
def lineReads (text : String) (name : String) (ops : List String) : Bool :=
  match tokens text.toList with
  | [] => false
  | cmd :: rest => upperToken cmd == name.toList && rest == ops.map String.toList

theorem witness_DecodeOfEncode : (Instr.imm (.num 255) (.lit 65535)).wf = true ∧
    (Instr.call 65535).wf = true ∧ (Instr.add (.num 0) (.num 8) (.num 255)).wf = true := by decide

theorem witness_EncodeOfDecode : decodeW 0x9FFFFFF0#32 ≠ .unknown ∧ decodeW 0#32 ≠ .unknown := by
  decide

theorem witness_StepExecutes_words :
    (coreW [0, 0x90000050] [4] 1).run = .running ∧
    (coreW [0, 0x90000050] [4] 1).image = .words [0, 0x90000050] ∧
    ([0, 0x90000050] : List Word)[(coreW [0, 0x90000050] [4] 1).pc]? = some 0x90000050 := by decide

theorem witness_StepExecutes_encoded :
    (coreW [encode (.jmp 65535)] [4] 0).run = .running ∧
    (coreW [encode (.jmp 65535)] [4] 0).image = .words [encode (.jmp 65535)] ∧
    (Instr.jmp 65535).wf = true ∧
    [encode (.jmp 65535)][(coreW [encode (.jmp 65535)] [4] 0).pc]? = some (encode (.jmp 65535)) := by
  decide

theorem witness_StepExecutes_text :
    (coreT ["IMM 0 5".toList] 0).run = .running ∧
    (coreT ["IMM 0 5".toList] 0).image = .text ["IMM 0 5".toList] [] ∧
    ["IMM 0 5".toList][(coreT ["IMM 0 5".toList] 0).pc]? = some "IMM 0 5".toList ∧
    decodeT [] "IMM 0 5".toList = some (.imm (.num 0) (.lit 5)) := by decide

theorem witness_EndOfProgram : (coreW [0, 0] [4] 2).run = .running ∧
    imageLength (coreW [0, 0] [4] 2).image ≤ (coreW [0, 0] [4] 2).pc := by decide

theorem witness_StoppedCore :
    State.reset.run ≠ .running ∧ { coreW [0] [4] 0 with run := .halted }.run ≠ .running := by decide

theorem witness_RunStateTransitions :
    imageRefusal (.words []) = none ∧ (coreW [] [] 0).run = .running ∧
    imageLength (coreW [] [] 0).image ≤ (coreW [] [] 0).pc ∧
    fetch (coreW [0x10000000] [] 0).image (coreW [0x10000000] [] 0).pc = .entry .noop ∧
    fetch (coreW [0xA4000000] [] 0).image (coreW [0xA4000000] [] 0).pc = .entry .ret := by decide

/-- There is a program of every length. -/
theorem words_of_length (n : Nat) : ∃ P : List Word, P.length = n :=
  ⟨List.replicate n 0, List.length_replicate⟩

theorem witness_FirstTickAfterStart :
    ∃ P : List Word, P.length = 65534 ∧ ((0x90000050 : Word) :: P).length ≤ 65535 := by
  obtain ⟨P, h⟩ := words_of_length 65534
  exact ⟨P, h, by simp [h]⟩

theorem witness_StartKeeps :
    (∃ P : List Word, P.length = 65535 ∧ imageRefusal (.words P) = none) ∧
    imageRefusal (parse "JMP 00 70000".toList) = none := by
  refine ⟨?_, by decide⟩
  obtain ⟨P, h⟩ := words_of_length 65535
  exact ⟨P, h, if_pos (h ▸ Nat.le_refl 65535)⟩

theorem witness_StartRefuses_long : ∃ P : List Word, 65535 < P.length := by
  obtain ⟨P, h⟩ := words_of_length 65536
  exact ⟨P, by omega⟩

theorem witness_StartRefuses_fits : ∃ P : List Word, P.length = 65535 ∧ P.length ≤ 65535 := by
  obtain ⟨P, h⟩ := words_of_length 65535
  exact ⟨P, h, by omega⟩

/-- The line that R94 (a) names, with the least target: `-0`. -/
theorem negativeTargetLine_minus_zero : NegativeTargetLine [] "JMP 10 -0".toList :=
  ⟨"JMP".toList, "10".toList, "0".toList, [], 0, by decide, by decide, by decide, by decide, by decide⟩

theorem witness_StartRefuses_meaningless :
    ∃ l ∈ ["NOOP".toList, "JMP 10 -0".toList], NegativeTargetLine [] l :=
  ⟨"JMP 10 -0".toList, by decide, negativeTargetLine_minus_zero⟩

/-- A target that is a label, though spelled as a negative number, has a meaning (R78 puts the label first). -/
theorem witness_StartRefuses_meaningful :
    ∀ l ∈ ["NOOP".toList, "JMP 00 -5".toList], ¬ NegativeTargetLine [("-5".toList, 3)] l := by
  intro l hl
  rcases List.mem_cons.1 hl with rfl | hl
  · rintro ⟨cmd, tag, digits, rest, n, h, -⟩
    rw [show tokens "NOOP".toList = ["NOOP".toList] by decide] at h
    cases h
  · obtain rfl := List.mem_singleton.1 hl
    rintro ⟨cmd, tag, digits, rest, n, h, -, -, hk, -⟩
    rw [show tokens "JMP 00 -5".toList = ["JMP".toList, "00".toList, "-5".toList] by decide] at h
    obtain ⟨-, h⟩ := List.cons.inj h
    obtain ⟨-, h⟩ := List.cons.inj h
    obtain ⟨h, -⟩ := List.cons.inj h
    rw [← h] at hk
    exact absurd hk (by decide)

theorem witness_Stop : (coreW [0] [4] 0).run = .running ∧ State.reset.run = .idle ∧
    { coreW [0] [4] 0 with run := .halted }.run = .halted := by decide

theorem witness_Skip : tokens " \t".toList = [] ∧
    tokens " .two words".toList = ('.' :: "two".toList) :: ["words".toList] ∧
    tokens ".".toList = ('.' :: []) :: [] := by decide

theorem witness_Noop_line : lineReads " noop 5" "NOOP" ["5"] = true := by decide

theorem witness_Unknown_line :
    tokens "; NOOP".toList = ";".toList :: ["NOOP".toList] ∧ ";".toList.head? ≠ some '.' ∧
    upperToken ";".toList ∉ commandTokens := by decide

theorem witness_Unknown_word : ∀ r ∈ decodeTable, r.matchesWord 0x10000001#32 = false := by decide

theorem witness_ThreeOperands : (regOk (.num 7) && regOk (.num 7) && regOk (.num 8)) = false ∧
    (regOk (.num 8) && regOk (.num 0) && regOk (.num 0)) = false ∧
    (regOk (.num 0) && regOk .bad && regOk (.num 0)) = false := by decide

theorem witness_Alu_lines : lineReads "add 0 1 2" "ADD" ["0", "1", "2"] = true ∧
    lineReads "Sub 7 6" "SUB" ["7", "6"] = true ∧ lineReads "OR" "OR" [] = true ∧
    lineReads "XOR 0 0 0" "XOR" ["0", "0", "0"] = true ∧
    lineReads "AND 1 2 3 4" "AND" ["1", "2", "3", "4"] = true ∧
    lineReads "NOT 4" "NOT" ["4"] = true ∧ lineReads "rsh 2 3" "RSH" ["2", "3"] = true := by decide

theorem witness_Not : regOk (.num 8) = false ∧ regOk .bad = false := by decide

theorem witness_Rsh : (regOk (.num 7) && regOk (.num 8)) = false ∧
    (regOk .bad && regOk (.num 0)) = false := by decide

theorem witness_Imm_bad : (regOk (.num 8) = false ∨ Literal.lit 1 = .bad) ∧
    (regOk (.num 7) = false ∨ Literal.bad = .bad) := by decide

theorem witness_Imm_lines : lineReads "imm 2 x" "IMM" ["2", "x"] = true ∧
    literalOperand ["2".toList, "x".toList][1]? = .bad ∧
    lineReads "IMM 3 65536" "IMM" ["3", "65536"] = true ∧
    literalOperand ["3".toList, "65536".toList][1]? = .lit 65536 ∧ (65535 : Int) < 65536 ∧
    lineReads "IMM 3 -32769" "IMM" ["3", "-32769"] = true ∧
    literalOperand ["3".toList, "-32769".toList][1]? = .lit (-32769) ∧ (-32769 : Int) < -32768 := by
  decide

theorem witness_Jmp_lines :
    tokens "jmp 00 L".toList = "jmp".toList :: "00".toList :: "L".toList :: [] ∧
    upperToken "jmp".toList = "JMP".toList ∧ lookupLabel "L".toList [("L".toList, 4)] = some 4 ∧
    tokens "JMP 00 65535".toList = "JMP".toList :: "00".toList :: "65535".toList :: [] ∧
    lookupLabel "65535".toList [] = none ∧ decimal "65535".toList = some 65535 ∧
    number "L".toList = none := by decide

theorem witness_Call_lines :
    tokens "JMP 10 f".toList = "JMP".toList :: "10".toList :: "f".toList :: [] ∧
    upperToken "JMP".toList = "JMP".toList ∧ lookupLabel "f".toList [("f".toList, 2)] = some 2 ∧
    tokens "JMP 10 0".toList = "JMP".toList :: "10".toList :: "0".toList :: [] ∧
    lookupLabel "0".toList [] = none ∧ decimal "0".toList = some 0 ∧ number "f".toList = none := by
  decide

theorem witness_Ret : (coreW [] [7, 2] 0).callStack = 7 :: [2] ∧ State.reset.callStack = [] ∧
    tokens "JMP 01 x".toList = "JMP".toList :: "01".toList :: ["x".toList] ∧
    upperToken "JMP".toList = "JMP".toList := by decide

theorem witness_Jmpx_lines : lineReads "JMP" "JMP" [] = true ∧
    lineReads "JMP 00" "JMP" ["00"] = true ∧ lineReads "JMP 10" "JMP" ["10"] = true ∧
    lineReads "JMP 0 5" "JMP" ["0", "5"] = true ∧ "0".toList ≠ "00".toList ∧
    "0".toList ≠ "10".toList ∧ "0".toList ≠ "01".toList := by decide

theorem witness_LoadStore : (regOk (.num 7) && memOk (.num 16)) = false ∧
    (regOk (.num 8) && memOk (.num 15)) = false ∧ (coreW [] [] 0).mem.wf = true ∧
    lineReads "rlod 1 15" "RLOD" ["1", "15"] = true ∧
    lineReads "RSTR 0" "RSTR" ["0"] = true := by decide

theorem witness_OutOfRangeAddresses : memOk (.num 16) = false ∧ memOk (.num 15) = true ∧
    memOk .bad = false := by decide

theorem witness_Errors :
    raisedKind (.rlod (.num 0) (.num 16)) (coreW [] [4] 0) = some .invalidOperand ∧
    ErrorKind.invalidOperand ≠ .emptyCallStack ∧
    raisedKind .jmpU (coreW [] [4] 0) = some .unresolvedTarget ∧
    ErrorKind.unresolvedTarget ≠ .emptyCallStack ∧
    raisedKind .unknown (coreW [] [4] 0) = some .unknownInstruction ∧
    ErrorKind.unknownInstruction ≠ .emptyCallStack ∧
    raisedKind .ret (coreW [] [] 0) = some .emptyCallStack ∧
    raisedKind .ret (coreW [] [4] 0) = none := by decide

/-- The state of an outcome that has one. -/
def got (o : Host.Outcome State Fault Refusal) : State :=
  match o with
  | .next t => t
  | .fault _ => State.reset
  | .refused _ => State.reset

theorem witness_OnlyTheDestination :
    exec (.add (.num 0) (.num 1) (.num 7)) (coreW [] [4] 0) =
      .next (got (exec (.add (.num 0) (.num 1) (.num 7)) (coreW [] [4] 0))) ∧
    (got (exec (.add (.num 0) (.num 1) (.num 7)) (coreW [] [4] 0))).readReg 7 ≠
      (coreW [] [4] 0).readReg 7 := ⟨rfl, by decide⟩

theorem witness_Storage_memory :
    exec (.rstr (.num 7) (.num 15)) (coreW [] [4] 0) =
      .next (got (exec (.rstr (.num 7) (.num 15)) (coreW [] [4] 0))) ∧
    (coreW [] [4] 0).mem.wf = true ∧
    (got (exec (.rstr (.num 7) (.num 15)) (coreW [] [4] 0))).memRead 15 ≠
      (coreW [] [4] 0).memRead 15 ∧
    (got (exec (.rstr (.num 7) (.num 15)) (coreW [] [4] 0))).mem ≠ (coreW [] [4] 0).mem :=
  ⟨rfl, by decide, by decide, by decide⟩

theorem witness_Storage_callStack :
    exec .ret (coreW [] [4] 0) = .next (got (exec .ret (coreW [] [4] 0))) ∧
    (got (exec .ret (coreW [] [4] 0))).callStack ≠ (coreW [] [4] 0).callStack ∧
    exec (.call 9) (coreW [] [4] 0) = .next (got (exec (.call 9) (coreW [] [4] 0))) ∧
    (got (exec (.call 9) (coreW [] [4] 0))).callStack ≠ (coreW [] [4] 0).callStack :=
  ⟨rfl, by decide, rfl, by decide⟩

theorem witness_Storage_reads :
    (∀ o a, Instr.rstr (.num 0) (.num 3) ≠ .rlod o a) ∧
    exec (.rstr (.num 0) (.num 3)) (coreW [] [4] 0) =
      .next (got (exec (.rstr (.num 0) (.num 3)) (coreW [] [4] 0))) :=
  ⟨fun _ _ h => (by cases h), rfl⟩

/-- P1's words 4 to 6: two stores and a load. -/
def storing : State := coreW [0xC0200000, 0xC030F000, 0xB0400000] [] 0

theorem witness_TicksNeverChange : ticks 4 storing = .next (got (ticks 4 storing)) ∧
    input (.start (.words [0])) storing = .next (got (input (.start (.words [0])) storing)) :=
  ⟨rfl, rfl⟩

/-- Cell 15 over the first tick of `storing`, which stores to cell 0. -/
theorem witness_ACellKeeps : storing.mem.wf = true ∧ ticks 1 storing = .next (got (ticks 1 storing)) ∧
    ∀ j u, j < 1 → ticks j storing = .next u → u.run = .running →
      ∀ o, fetch u.image u.pc ≠ .entry (.rstr o (.num (15 : CellAddr))) := by
  refine ⟨by decide, rfl, fun j u hj h _ o => ?_⟩
  obtain rfl : j = 0 := by omega
  cases h
  rw [show fetch storing.image storing.pc = .entry (.rstr (.num 2) (.num 0)) by decide]
  intro h
  cases h

theorem witness_TargetsAreNotRangeChecked :
    (coreW [0xA2000010] [] 0).run = .running ∧ imageLength (coreW [0xA2000010] [] 0).image ≤ 1 ∧
    fetch (coreW [0xA2000010] [] 0).image (coreW [0xA2000010] [] 0).pc = .entry (.jmp 1) ∧
    fetch (coreW [0xAA000010] [] 0).image (coreW [0xAA000010] [] 0).pc = .entry (.call 1) ∧
    fetch (coreW [0xA4000000] [1, 5] 0).image (coreW [0xA4000000] [1, 5] 0).pc = .entry .ret ∧
    (coreW [0xA4000000] [1, 5] 0).callStack = 1 :: [5] := by decide

/-- A call at index 0, a nested call at 2 that returns, and the return of the outer one at 3. -/
def nested : State := coreW [0xAA000020, 0x10000000, 0xAA000040, 0xA4000000, 0xA4000000] [9] 0

theorem witness_ReturnResumes : nested.run = .running ∧
    fetch nested.image nested.pc = .entry (.call 2) ∧
    ticks (2 + 1) nested = .next (got (ticks 3 nested)) ∧
    (∀ j u, j ≤ 2 → ticks (j + 1) nested = .next u →
      nested.callStack.length < u.callStack.length) ∧
    (got (ticks 3 nested)).callStack.length = nested.callStack.length + 1 ∧
    (got (ticks 3 nested)).run = .running ∧
    fetch (got (ticks 3 nested)).image (got (ticks 3 nested)).pc = .entry .ret := by
  refine ⟨by decide, by decide, rfl, fun j u hj h => ?_, by decide, by decide, by decide⟩
  obtain rfl | rfl | rfl : j = 0 ∨ j = 1 ∨ j = 2 := by omega
  all_goals
    cases h
    decide

theorem witness_ControlFlow : SameControl storing (storing.writeReg 2 0xFF) ∧
    storing ≠ storing.writeReg 2 0xFF ∧
    runInputs [.tick, .tick, .stop] storing = .next (got (runInputs [.tick, .tick, .stop] storing)) :=
  ⟨⟨rfl, rfl, rfl, rfl, rfl⟩, by decide, rfl⟩

/-- A state of the invariant with a Call Stack entry at its upper bound and memory in use. -/
theorem witness_Invariant : Invariant (coreW [0xAA000000, 0] [2] 0) ∧
    step (coreW [0xAA000000, 0] [2] 0) = .next (got (step (coreW [0xAA000000, 0] [2] 0))) ∧
    InputEvent.stop ≠ .tick ∧
    input .stop (coreW [0xAA000000, 0] [2] 0) =
      .next (got (input .stop (coreW [0xAA000000, 0] [2] 0))) := by
  refine ⟨⟨by decide, ?_, by decide, ?_, trivial⟩, rfl, by decide, rfl⟩
  · show ∀ e ∈ [2], 1 ≤ e ∧ e ≤ 2
    decide
  · exact Nat.zero_le _

/-- `start` and `tick` in the state of `witness_Invariant`. -/
theorem witness_Progress : Invariant (coreW [0xAA000000, 0] [2] 0) ∧
    (∀ im, InputEvent.start (.words []) = .start im → imageRefusal im = none) ∧
    ∀ im, InputEvent.tick = .start im → imageRefusal im = none :=
  ⟨witness_Invariant.1, fun im h => (by cases h; decide), fun im h => (by cases h)⟩

theorem witness_AcceptedRuns :
    ∀ im, InputEvent.start im ∈ [.start (.words [0xA4000000]), .tick, .tick] →
      imageRefusal im = none := by
  intro im h
  simp only [List.mem_cons, InputEvent.start.injEq, reduceCtorEq, List.not_mem_nil, or_false] at h
  subst h
  decide

theorem witness_LevelsAgree : asm "IMM 1 x" = some 0x9FF00000 ∧ asm "RLOD 1 -1" = some 0xB01FF000 ∧
    asm "JMP 00 65535" = some 0xA20FFFF0 := by decide

theorem witness_AssembledPrograms :
    assemble ".r\nJMP 10 r".toList = some [0, 0xAA000000] ∧
    (splitLines ".r\nJMP 10 r".toList)[1]? = some "JMP 10 r".toList := by decide

/-- R77: the minus sign, and what each kind of operand makes of it. -/
theorem test_numbers : number "-7".toList = some (-7) ∧ number "-".toList = none ∧
    number "--7".toList = none ∧ number "007".toList = some 7 ∧ number "+5".toList = none ∧
    indexOperand (some "-7".toList) = .bad ∧ indexOperand (some "-0".toList) = .num 0 ∧
    indexOperand (some "x".toList) = .bad ∧ literalOperand (some "-7".toList) = .lit (-7) ∧
    literalOperand none = .bad := by decide

/-- R78 and R94 (a): a label named like a negative number shadows it. -/
theorem test_label_shadows_negative_number :
    asm "JMP 00 -5" [("-5".toList, 3)] = some 0xA2000030 ∧ asm "JMP 00 -5" = none := by decide

theorem witness_Tokens : "IMM".toList ≠ [] ∧ (∀ c ∈ "IMM".toList, isSpace c = false) ∧
    isSpace '\r' = true :=
  ⟨by decide, fun c hc => by
    have h := List.all_eq_true.1 (show "IMM".toList.all (fun c => !isSpace c) = true by decide) c hc
    simpa using h, by decide⟩

theorem witness_Tokens_case : '[' ∉ "abcdefghijklmnopqrstuvwxyz".toList ∧
    'A' ∉ "abcdefghijklmnopqrstuvwxyz".toList := by decide

theorem witness_Decimal_digits : digitValue '0' = some 0 ∧ digitValue '9' = some 9 ∧
    ':' ∉ "0123456789".toList ∧ '/' ∉ "0123456789".toList := by decide

theorem witness_Decimal : decimal "12".toList = some 12 ∧ digitValue '3' = some 3 ∧
    "7".toList ≠ [] ∧ 'x' ∈ "1x2".toList ∧ digitValue 'x' = none := by decide

theorem witness_SurroundingSpace : (∀ c ∈ " \t".toList, isSpace c = true) ∧
    (∀ c ∈ "\r".toList, isSpace c = true) ∧
    tokens "imm 0 5".toList = "imm".toList :: ["0".toList, "5".toList] ∧
    tokens "IMM 0 5".toList = "IMM".toList :: ["0".toList, "5".toList] ∧
    upperToken "imm".toList = upperToken "IMM".toList :=
  ⟨List.all_eq_true.1 (by decide), List.all_eq_true.1 (by decide), by decide, by decide, by decide⟩

theorem witness_EventCodes :
    Event.emptyCallStack.code = Event.emptyCallStack.code := rfl

end Sys2Proof.Tests
end

section
/-! # Addresses out of range (20_memory.md R56)

The error table of 60_exceptions.md R201, `raisedKind`, says which instruction raises what. An instruction that it lists
does nothing but raise (`exec_of_raisedKind`), and it lists every load and store whose address fails `memOk`. -/

namespace Sys2Proof.Machine

/-- An instruction for which the table of R201 names an error raises that error and does nothing else. -/
theorem exec_of_raisedKind {i : Instr} {s : State} {k : ErrorKind} (hk : raisedKind i s = some k) :
    exec i s = .next (s.raise k) := by
  cases exec_cases i s with
  | raises k' hk' h => exact Option.some.inj (hk'.symm.trans hk) ▸ h
  | writesReg _ _ _ hn _ => simp [hn] at hk
  | writesMem _ _ _ _ hn _ => simp [hn] at hk
  | skips hi _ => simp [hi, raisedKind] at hk
  | halts hi _ => simp [hi, raisedKind] at hk
  | jumps _ hi _ => simp [hi, raisedKind] at hk
  | calls _ hi _ => simp [hi, raisedKind] at hk
  | returns _ _ hi hs _ => simp [hi, raisedKind, hs] at hk

/-- R204 for every instruction: a recoverable error of the table only sets the event and advances the pc. -/
theorem exec_recovers_of_raisedKind {i : Instr} {s : State} {k : ErrorKind}
    (hk : raisedKind i s = some k) (hr : k.isFatal = false) :
    ∃ t, exec i s = .next t ∧ Recovers k s t :=
  ⟨s.raise k, exec_of_raisedKind hk, raise_recovers s hr⟩

theorem raisedKind_rlod_of_memOk_false (a : Operand) {m : Operand} (s : State)
    (h : memOk m = false) : raisedKind (.rlod a m) s = some .invalidOperand := by
  simp [raisedKind, h]

theorem raisedKind_rstr_of_memOk_false (a : Operand) {m : Operand} (s : State)
    (h : memOk m = false) : raisedKind (.rstr a m) s = some .invalidOperand := by
  simp [raisedKind, h]

/-- No number wraps to a cell: the addresses that fail the check are those of 16 and above. -/
theorem memOk_num_eq_false_iff (n : Nat) : memOk (.num n) = false ↔ 16 ≤ n := by
  simp [memOk]

/-- Settles O33: the table of R201 lists both accesses at a bad address as recoverable errors, whatever the register
operand, and the check on addresses does not wrap. -/
theorem outOfRangeAddressesAreOperandErrors : Obligations.OutOfRangeAddressesAreOperandErrors := by
  refine ⟨fun a m s h => ⟨?load, ?store⟩, memOk_num_eq_false_iff, rfl⟩
  case load => exact exec_recovers_of_raisedKind (raisedKind_rlod_of_memOk_false a s h) rfl
  case store => exact exec_recovers_of_raisedKind (raisedKind_rstr_of_memOk_false a s h) rfl

end Sys2Proof.Machine
end

section
/-! # A core that is not running (40_sequencer.md R112)

A tick of a stopped core is `State.idleTick`, which leaves the core stopped and is idempotent: so any number of ticks,
one at least, is one of them. -/

namespace Sys2Proof.Machine

/-- R112: whatever the image and the pc are, a stopped core's tick only sets the event to its default. -/
theorem step_of_not_running {s : State} (h : s.run ≠ .running) : step s = .next s.idleTick := by
  rcases step_cases s with ⟨-, hs⟩ | ⟨hr, -⟩ | ⟨hr, -⟩ | ⟨_, hr, -⟩
  · exact hs
  all_goals exact absurd hr h

@[simp] theorem State.idleTick_idleTick (s : State) : s.idleTick.idleTick = s.idleTick := rfl

theorem ticks_of_not_running (k : Nat) {s : State} (h : s.run ≠ .running) :
    ticks (k + 1) s = .next s.idleTick := by
  induction k generalizing s with
  | zero => exact (ticks_succ_eq_next_iff 0 s _).2 ⟨s.idleTick, step_of_not_running h, rfl⟩
  | succ k ih =>
    have hlater : ticks (k + 1) s.idleTick = .next s.idleTick := ih (s := s.idleTick) h
    exact (ticks_succ_eq_next_iff (k + 1) s _).2 ⟨s.idleTick, step_of_not_running h, hlater⟩

/-- Settles O9: replacing the image leaves the core stopped, so its ticks are `ticks_of_not_running` for every image. -/
theorem ticksOfAStoppedCoreChangeNothing : Obligations.TicksOfAStoppedCoreChangeNothing := by
  intro k s h
  have himage (im : Image) : (s.setImage im).run ≠ .running := h
  exact ⟨ticks_of_not_running k h, fun im => ticks_of_not_running k (himage im)⟩

end Sys2Proof.Machine
end

section
/-! # UNKNOWN (40_sequencer.md R118)

`commandTable` lists exactly the twelve command tokens of 30_encoding.md R74, so a line whose command token is none of
them reaches the last row of that table, and a word that matches no row above the last one reaches the last row of
R85. -/

namespace Sys2Proof

theorem commandTable_tokens : commandTable.map Prod.fst = Machine.commandTokens := by decide

/-- A token names no command exactly when its upper case is none of the twelve. -/
theorem commandOf_eq_none_iff (t : Token) :
    commandOf t = none ↔ upperToken t ∉ Machine.commandTokens := by
  have hfind : commandOf t = none ↔ commandTable.find? (·.1 == upperToken t) = none := by
    unfold commandOf
    cases commandTable.find? (·.1 == upperToken t) <;> simp
  rw [hfind, List.find?_eq_none, ← commandTable_tokens, List.mem_map]
  constructor
  · rintro hno ⟨row, hrow, heq⟩
    exact hno row hrow (beq_iff_eq.2 heq)
  · intro hno row hrow heq
    exact hno ⟨row, hrow, beq_iff_eq.1 heq⟩

theorem decodeTokens_of_commandOf_none (lt : LabelTable) {cmd : Token} (ops : List Token)
    (h : commandOf cmd = none) : decodeTokens lt (cmd :: ops) = some .unknown := by
  simp [decodeTokens, h]

/-- The first token of a line is not empty. -/
theorem exists_cons_of_tokens {l : Line} {cmd : Token} {ops : List Token}
    (h : tokens l = cmd :: ops) : ∃ c t, cmd = c :: t := by
  cases htrim : trim l with
  | nil =>
    rw [← tokens_trim, htrim] at h
    simp [tokens, tokensFrom] at h
  | cons c cs =>
    obtain ⟨t, rest, ht⟩ := tokens_eq_cons_of_trim l htrim
    obtain ⟨hcmd, -⟩ := List.cons.inj (h.symm.trans ht)
    exact ⟨c, t, hcmd⟩

/-- R118 at Level T: a line that is neither blank nor a label line and names no command. -/
theorem decodeT_of_unknown_command (lt : LabelTable) {l : Line} {cmd : Token} {ops : List Token}
    (htok : tokens l = cmd :: ops) (hlabel : cmd.head? ≠ some '.')
    (hcmd : upperToken cmd ∉ Machine.commandTokens) : decodeT lt l = some .unknown := by
  obtain ⟨c, t, rfl⟩ := exists_cons_of_tokens htok
  have hdot : c ≠ '.' := fun hc => hlabel (congrArg some hc)
  rw [decodeT_of_tokens lt l htok hdot]
  exact decodeTokens_of_commandOf_none lt ops ((commandOf_eq_none_iff _).2 hcmd)

/-- R118 at Level W: a word that none of rows 1 to 18 of 30_encoding.md R85 matches. -/
theorem decodeW_of_no_row {w : Word} (h : ∀ r ∈ decodeTable, r.matchesWord w = false) :
    decodeW w = .unknown := by
  have hfind : decodeTable.find? (·.matchesWord w) = none :=
    List.find?_eq_none.2 fun r hr => by simp [h r hr]
  simp [decodeW, hfind]

end Sys2Proof

namespace Sys2Proof.Machine

/-- Settles O18: the effect is the entry of UNKNOWN in the table of R201, a recoverable error; the line and the word
that decode to it are the fall-through rows of the two decoders, and 0xF0000000 is one such word. -/
theorem unknownReportsAndGoesOn : Obligations.UnknownReportsAndGoesOn := by
  refine ⟨fun s => ?effect, fun lt l cmd ops => ?line, fun w => decodeW_of_no_row, ?sample⟩
  case effect => exact exec_recovers_of_raisedKind (i := .unknown) rfl rfl
  case line => exact decodeT_of_unknown_command lt
  case sample => exact decodeW_of_no_row (by decide)

end Sys2Proof.Machine
end

section
/-! # What decodes to a command (30_encoding.md R74, R85)

Two rows of the table of R85 never match the same word, so a row that matches decides the decode. Likewise each command
token stands once in `commandTable`, and none begins with the dot of a label line. -/

namespace Sys2Proof

/-! ## Words -/

/-- The table of R85 row against row: both patterns, cut to the bits that both masks keep, differ. -/
theorem decodeTable_patterns_differ : decodeTable.Pairwise fun r q =>
    r.pattern &&& q.mask ≠ q.pattern &&& r.mask := by decide

/-- A word that two rows match has, on the bits of both masks, the pattern of each. -/
theorem pattern_and_mask_of_both_match {r q : DecodeRow} {w : Word} (hr : r.matchesWord w = true)
    (hq : q.matchesWord w = true) : r.pattern &&& q.mask = q.pattern &&& r.mask := by
  have hr' : w &&& r.mask = r.pattern := beq_iff_eq.1 hr
  have hq' : w &&& q.mask = q.pattern := beq_iff_eq.1 hq
  rw [← hr', ← hq', BitVec.and_assoc, BitVec.and_assoc, BitVec.and_comm r.mask]

/-- In a list of which no two members satisfy `p` together, a member that satisfies `p` is the one found. -/
theorem find?_eq_some_of_pairwise {α : Type} {p : α → Bool} {l : List α} {x : α}
    (hl : l.Pairwise fun y z => ¬(p y = true ∧ p z = true)) (hx : x ∈ l) (hp : p x = true) :
    l.find? p = some x := by
  induction hl with
  | nil => cases hx
  | @cons y rest hy _ ih =>
    rcases List.mem_cons.1 hx with rfl | hrest
    · exact List.find?_cons_of_pos hp
    · have hnot : ¬ p y = true := fun hpy => hy x hrest ⟨hpy, hp⟩
      rw [List.find?_cons_of_neg hnot]
      exact ih hrest

/-- R85: a word decodes by whichever row matches it. -/
theorem decodeW_of_row {r : DecodeRow} {w : Word} (hr : r ∈ decodeTable)
    (hm : r.matchesWord w = true) : decodeW w = r.build w := by
  have hdisjoint : decodeTable.Pairwise fun r q =>
      ¬(r.matchesWord w = true ∧ q.matchesWord w = true) :=
    decodeTable_patterns_differ.imp fun hne hboth =>
      hne (pattern_and_mask_of_both_match hboth.1 hboth.2)
  simp [decodeW, find?_eq_some_of_pairwise hdisjoint hr hm]

/-- A format R3 word decodes by the row of its opcode; `n` is the row's place in the table. -/
theorem decodeW_wordR3 (n : Nat) {op : BitVec 4} {make : Operand → Operand → Operand → Instr}
    (hrow : decodeTable[n]? =
      some ⟨0xF000000F#32, place op 28, fun w => make (fieldA w) (fieldB w) (fieldC w)⟩)
    (a b c : BitVec 8) :
    decodeW (wordR3 op a b c) = make (.num a.toNat) (.num b.toNat) (.num c.toNat) := by
  rw [decodeW_of_row (List.mem_of_getElem? hrow) (beq_iff_eq.2 (wordR3_masked op a b c))]
  simp only [fieldA_wordR3, fieldB_wordR3, fieldC_wordR3]

/-- A format R1 word decodes by the row of its opcode. -/
theorem decodeW_wordR1 (n : Nat) {op : BitVec 4} {make : Operand → Instr}
    (hrow : decodeTable[n]? = some ⟨0xF00FFFFF#32, place op 28, fun w => make (fieldA w)⟩)
    (a : BitVec 8) : decodeW (wordR1 op a) = make (.num a.toNat) := by
  rw [decodeW_of_row (List.mem_of_getElem? hrow) (beq_iff_eq.2 (wordR1_masked op a))]
  simp only [fieldA_wordR1]

/-- A word of format R2, or of format M, decodes by the row of its opcode. -/
theorem decodeW_wordR2 (n : Nat) {op : BitVec 4} {make : Operand → Operand → Instr}
    (hrow : decodeTable[n]? =
      some ⟨0xF0000FFF#32, place op 28, fun w => make (fieldA w) (fieldB w)⟩)
    (a b : BitVec 8) : decodeW (wordR2 op a b) = make (.num a.toNat) (.num b.toNat) := by
  rw [decodeW_of_row (List.mem_of_getElem? hrow) (beq_iff_eq.2 (wordR2_masked op a b))]
  simp only [fieldA_wordR2, fieldB_wordR2]

/-! ## Lines -/

/-- No command token stands twice in the table of R74. -/
theorem commandTable_find?_of_mem :
    ∀ row ∈ commandTable, commandTable.find? (·.1 == row.1) = some row := by decide

theorem commandTable_not_label : ∀ row ∈ commandTable, row.1.head? ≠ some '.' := by decide

theorem commandOf_of_mem {cmd : Token} {k : Command} (h : (upperToken cmd, k) ∈ commandTable) :
    commandOf cmd = some k := by
  simp [commandOf, commandTable_find?_of_mem _ h]

/-- Folding keeps a leading dot, so a token that folds to a command does not begin a label line. -/
theorem head?_ne_dot_of_mem {cmd : Token} {k : Command}
    (h : (upperToken cmd, k) ∈ commandTable) : cmd.head? ≠ some '.' := by
  intro hdot
  have hfold : (upperToken cmd).head? = some (upperChar '.') := by
    rw [upperToken, List.head?_map, hdot, Option.map_some]
  exact commandTable_not_label _ h hfold

/-- A line that names a command decodes by its tokens. -/
theorem decodeT_of_command (lt : LabelTable) {l : Line} {cmd : Token} {ops : List Token}
    {k : Command} (htok : tokens l = cmd :: ops) (hcmd : (upperToken cmd, k) ∈ commandTable) :
    decodeT lt l = decodeTokens lt (cmd :: ops) := by
  obtain ⟨c, t, rfl⟩ := exists_cons_of_tokens htok
  exact decodeT_of_tokens lt l htok fun hc => head?_ne_dot_of_mem hcmd (congrArg some hc)

end Sys2Proof

namespace Sys2Proof.Machine

/-- R74: every line of a command decodes as the command's row of `decodeTokens` says. -/
theorem lineDecodes_of_command (k : Command) {name : Token} {build : List Token → Instr}
    (hname : (name, k) ∈ commandTable)
    (hbuild : ∀ lt cmd ops, commandOf cmd = some k →
      decodeTokens lt (cmd :: ops) = some (build ops)) : LineDecodes name build := by
  rintro lt l cmd ops htok rfl
  rw [decodeT_of_command lt htok hname]
  exact hbuild lt cmd ops (commandOf_of_mem hname)

end Sys2Proof.Machine
end

section
/-! # Arithmetic and logic (41_alu.md)

Each instruction either writes one register and advances, or raises `InvalidOperand`. What it writes is a function `f` of
the registers it reads; the statements describe the written byte by a relation `R` to those registers, so that all that is
left to each instruction is that `f` meets its `R`. -/

namespace Sys2Proof.Machine

/-! ## A register write with the default advance -/

theorem advance_writeReg_onlyRegister (s : State) (r : RegIndex) (v : Byte) :
    OnlyRegister r s (s.writeReg r v).advance :=
  ⟨fun _ hq => readReg_writeReg_ne s v hq, ⟨rfl, fun _ => rfl⟩, rfl, rfl, rfl, rfl⟩

/-- An instruction that writes `v` to register `r` and advances leaves `v` there, whatever is said of `v`. -/
theorem exec_writes {i : Instr} {s : State} {r : RegIndex} {v : Byte} {R : Byte → Prop}
    (he : exec i s = .next (s.writeReg r v).advance) (hv : R v) :
    ∃ t, exec i s = .next t ∧ R (t.readReg r) ∧ t.pc = s.pc + 1 ∧ OnlyRegister r s t := by
  have hread : (s.writeReg r v).advance.readReg r = v := readReg_writeReg_self s r v
  exact ⟨_, he, hread.symm ▸ hv, rfl, advance_writeReg_onlyRegister s r v⟩

/-! ## The three-register instructions (R140) -/

theorem aluThree_num (f : Byte → Byte → Byte) (a b c : RegIndex) (s : State) :
    aluThree f (.num a) (.num b) (.num c) s =
      .next (s.writeReg c (f (s.readReg a) (s.readReg b))).advance := by
  simp [aluThree]

theorem aluThree_of_regOk_false (f : Byte → Byte → Byte) {a b c : Operand} (s : State)
    (h : (regOk a && regOk b && regOk c) = false) :
    aluThree f a b c s = .next (s.raise .invalidOperand) := by
  rcases aluThree_cases f a b c s with ⟨ra, rb, rc, ha, hb, hc, -⟩ | ⟨-, hraise⟩
  · simp [regOk_of_regOf ha, regOk_of_regOf hb, regOk_of_regOf hc] at h
  · exact hraise

/-- What the five statements about three-register instructions share. The instruction writes what `f` makes of its two
sources, which `R` describes, or raises `InvalidOperand`; row `n` of R85 is its word and `k` its command. -/
theorem threeRegister_meets {make : Operand → Operand → Operand → Instr} {op : BitVec 4}
    {name : Token} {f : Byte → Byte → Byte} {R : Byte → Byte → Byte → Prop} (n : Nat) (k : Command)
    (hf : ∀ va vb, R va vb (f va vb))
    (hexec : ∀ a b c s, exec (make a b c) s = aluThree f a b c s)
    (hrow : decodeTable[n]? =
      some ⟨0xF000000F#32, place op 28, fun w => make (fieldA w) (fieldB w) (fieldC w)⟩)
    (hname : (name, k) ∈ commandTable)
    (hbuild : ∀ lt cmd ops, commandOf cmd = some k → decodeTokens lt (cmd :: ops) =
      some (make (indexOperand ops[0]?) (indexOperand ops[1]?) (indexOperand ops[2]?))) :
    (∀ (a b c : RegIndex) (s : State), ∃ t, exec (make (.num a) (.num b) (.num c)) s = .next t ∧
      R (s.readReg a) (s.readReg b) (t.readReg c) ∧ t.pc = s.pc + 1 ∧ OnlyRegister c s t) ∧
    (∀ (a b c : Operand) (s : State), (regOk a && regOk b && regOk c) = false →
      ∃ t, exec (make a b c) s = .next t ∧ Recovers .invalidOperand s t) ∧
    (∀ a b c : BitVec 8,
      decodeW (wordR3 op a b c) = make (.num a.toNat) (.num b.toNat) (.num c.toNat)) ∧
    LineDecodes name fun ops =>
      make (indexOperand ops[0]?) (indexOperand ops[1]?) (indexOperand ops[2]?) := by
  refine ⟨fun a b c s => ?writes, fun a b c s hbad => ?recovers, decodeW_wordR3 n hrow,
    lineDecodes_of_command k hname hbuild⟩
  case writes => exact exec_writes ((hexec _ _ _ s).trans (aluThree_num f a b c s)) (hf _ _)
  case recovers =>
    have hraise := (hexec a b c s).trans (aluThree_of_regOk_false f s hbad)
    exact ⟨_, hraise, raise_recovers s rfl⟩

theorem exec_add (a b c : Operand) (s : State) :
    exec (.add a b c) s = aluThree (fun va vb => vb + va) a b c s := rfl

theorem exec_sub (a b c : Operand) (s : State) :
    exec (.sub a b c) s = aluThree (fun va vb => vb - va) a b c s := rfl

theorem exec_or (a b c : Operand) (s : State) :
    exec (.or a b c) s = aluThree (fun va vb => va ||| vb) a b c s := rfl

theorem exec_xor (a b c : Operand) (s : State) :
    exec (.xor a b c) s = aluThree (fun va vb => va ^^^ vb) a b c s := rfl

theorem exec_and (a b c : Operand) (s : State) :
    exec (.and a b c) s = aluThree (fun va vb => va &&& vb) a b c s := rfl

/-- Subtraction of bytes wraps: it is the difference of integers modulo 256. -/
theorem toNat_sub_eq_emod (x y : Byte) :
    ((x - y).toNat : Int) = (x.toNat - y.toNat : Int) % 256 := by
  have hx := x.isLt
  have hy := y.isLt
  rw [BitVec.toNat_sub]
  omega

/-- Settles O19: the sum of bytes wraps at 256. -/
theorem addWritesTheSumMod256 : Obligations.AddWritesTheSumMod256 :=
  threeRegister_meets (R := fun va vb v => v.toNat = (vb.toNat + va.toNat) % 256) 2 .add
    (fun va vb => BitVec.toNat_add vb va) exec_add rfl (by decide)
    fun _ _ _ h => by simp only [decodeTokens, h]

/-- Settles O20: the first operand's register is taken from the second's, modulo 256. -/
theorem subWritesTheDifferenceMod256 : Obligations.SubWritesTheDifferenceMod256 :=
  threeRegister_meets (R := fun va vb v => (v.toNat : Int) = (vb.toNat - va.toNat : Int) % 256) 3
    .sub (fun va vb => toNat_sub_eq_emod vb va) exec_sub rfl (by decide)
    fun _ _ _ h => by simp only [decodeTokens, h]

/-- Settles O21: the byte written is described bit by bit. -/
theorem orWritesTheBitwiseOr : Obligations.OrWritesTheBitwiseOr :=
  threeRegister_meets
    (R := fun va vb v => ∀ k : Nat, v.getLsbD k = (va.getLsbD k || vb.getLsbD k)) 4 .or
    (fun _ _ _ => BitVec.getLsbD_or) exec_or rfl (by decide)
    fun _ _ _ h => by simp only [decodeTokens, h]

/-- Settles O22: as for OR, with the exclusive or of each pair of bits. -/
theorem xorWritesTheBitwiseExclusiveOr : Obligations.XorWritesTheBitwiseExclusiveOr :=
  threeRegister_meets
    (R := fun va vb v => ∀ k : Nat, v.getLsbD k = (va.getLsbD k ^^ vb.getLsbD k)) 5 .xor
    (fun _ _ _ => BitVec.getLsbD_xor) exec_xor rfl (by decide)
    fun _ _ _ h => by simp only [decodeTokens, h]

/-- Settles O23: as for OR, with the and of each pair of bits. -/
theorem andWritesTheBitwiseAnd : Obligations.AndWritesTheBitwiseAnd :=
  threeRegister_meets
    (R := fun va vb v => ∀ k : Nat, v.getLsbD k = (va.getLsbD k && vb.getLsbD k)) 6 .and
    (fun _ _ _ => BitVec.getLsbD_and) exec_and rfl (by decide)
    fun _ _ _ h => by simp only [decodeTokens, h]

/-! ## NOT and RSH (R146, R147) -/

theorem exec_not_num (a : RegIndex) (s : State) :
    exec (.not (.num a)) s = .next (s.writeReg a (~~~(s.readReg a))).advance := by
  simp [exec, execNot]

theorem exec_rsh_num (a b : RegIndex) (s : State) :
    exec (.rsh (.num a) (.num b)) s = .next (s.writeReg b (s.readReg a >>> 1)).advance := by
  simp [exec, execRsh]

theorem toNat_shiftRight_one (x : Byte) : (x >>> 1).toNat = x.toNat / 2 := by
  rw [BitVec.toNat_ushiftRight, Nat.shiftRight_one]

/-- Settles O24: the complement of a byte is its distance from 255. -/
theorem notWritesTheComplement : Obligations.NotWritesTheComplement := by
  refine ⟨fun a s => ?writes, fun a s hbad => ?recovers, decodeW_wordR1 7 rfl,
    lineDecodes_of_command .not (by decide) fun _ _ _ h => by simp only [decodeTokens, h]⟩
  case writes =>
    exact exec_writes (R := fun v => v.toNat = 255 - (s.readReg a).toNat) (exec_not_num a s)
      BitVec.toNat_not
  case recovers => exact exec_recovers_of_raisedKind (by simp [raisedKind, hbad]) rfl

/-- Settles O25: a shift by one place halves the byte, and the remainder is dropped. -/
theorem rshWritesTheHalf : Obligations.RshWritesTheHalf := by
  refine ⟨fun a b s => ?writes, fun a b s hbad => ?recovers, decodeW_wordR2 8 rfl,
    lineDecodes_of_command .rsh (by decide) fun _ _ _ h => by simp only [decodeTokens, h]⟩
  case writes =>
    exact exec_writes (R := fun v => v.toNat = (s.readReg a).toNat / 2) (exec_rsh_num a b s)
      (toNat_shiftRight_one _)
  case recovers => exact exec_recovers_of_raisedKind (by simp [raisedKind, hbad]) rfl

end Sys2Proof.Machine
end

section
/-! # Load immediate (42_imm.md)

IMM writes the literal modulo 256 however large it is; only the assembler bounds it, to [-32768, 65535]. A bad register or
a bad literal raises `InvalidOperand` at Level T, and the word of a bad literal holds 0xFF, which is no register. -/

namespace Sys2Proof

/-! ## Words -/

/-- The word of an IMM instruction decodes by the row of opcode 0x9, the one row of R85 in format I. -/
theorem decodeW_wordI (a : BitVec 8) (v : BitVec 16) :
    decodeW (wordI 0x9#4 a v) = .imm (.num a.toNat) (.lit v.toNat) := by
  have hrow : decodeTable[9]? =
      some ⟨0xF000000F#32, place 0x9#4 28, fun w => .imm (fieldA w) (.lit (field16 w))⟩ := rfl
  rw [decodeW_of_row (List.mem_of_getElem? hrow) (beq_iff_eq.2 (wordI_masked 0x9#4 a v))]
  simp only [fieldA_wordI, field16_wordI]

/-- R94 (c): the assembler admits the literals from -32768 to 65535. -/
theorem assemblable_lit_iff (i : Int) :
    (Literal.lit i).assemblable = true ↔ -32768 ≤ i ∧ i ≤ 65535 := by
  rw [Literal.assemblable, Bool.and_eq_true, decide_eq_true_eq, decide_eq_true_eq]
  exact Iff.rfl

/-- R92: whatever the register is, a bad literal is assembled as a word whose register field is 0xFF. -/
theorem asmWord_imm_bad (a : Operand) : asmWord (.imm a .bad) = some 0x9FF00000#32 := rfl

theorem asmWord_imm_eq_none (a : Operand) {i : Int} (h : i < -32768 ∨ 65535 < i) :
    asmWord (.imm a (.lit i)) = none := by
  have hrefused : ¬ (Literal.lit i).assemblable = true := by
    rw [assemblable_lit_iff]
    omega
  exact if_neg hrefused

end Sys2Proof

namespace Sys2Proof.Machine

theorem asmLine_of_decodeT {lt : LabelTable} {l : Line} {i : Instr}
    (h : decodeT lt l = some i) : asmLine lt l = asmWord i := by
  simp only [asmLine, h]

/-- R74: IMM takes a register from its first operand token and a literal from its second. -/
theorem lineDecodes_imm : LineDecodes "IMM".toList fun ops =>
    .imm (indexOperand ops[0]?) (literalOperand ops[1]?) :=
  lineDecodes_of_command .imm (by decide) fun _ _ _ h => by simp only [decodeTokens, h]

/-! ## Effect -/

theorem exec_imm_num (a : RegIndex) (i : Int) (s : State) :
    exec (.imm (.num a) (.lit i)) s = .next (s.writeReg a (BitVec.ofInt 8 i)).advance := by
  simp [exec, execImm, literalByte]

/-- The byte of an integer is its remainder by 256, which is not negative whatever the sign of the integer. -/
theorem toNat_ofInt_eq_emod (i : Int) : ((BitVec.ofInt 8 i).toNat : Int) = i % 256 := by
  rw [BitVec.toNat_ofInt]
  exact Int.toNat_of_nonneg (Int.emod_nonneg i (by decide))

/-- R160: either operand being bad is the error of IMM. -/
theorem raisedKind_imm_of_bad {a : Operand} {v : Literal} (s : State)
    (h : regOk a = false ∨ v = .bad) : raisedKind (.imm a v) s = some .invalidOperand := by
  cases v with
  | bad => rfl
  | lit i =>
    have ha : regOk a = false := h.resolve_right (by simp)
    simp [raisedKind, ha]

/-- Settles O26: the byte of the literal is its remainder by 256, a bad operand is the error of IMM in the table of R201,
and a line is assembled, or refused, by its decoded literal. -/
theorem immWritesTheLiteralMod256 : Obligations.ImmWritesTheLiteralMod256 := by
  refine ⟨fun a i s => ?writes, fun a v s hbad => ?recovers, decodeW_wordI,
    fun lt l cmd ops htok hcmd => ?assembles, lineDecodes_imm⟩
  case writes =>
    exact exec_writes (R := fun v => (v.toNat : Int) = i % 256) (exec_imm_num a i s)
      (toNat_ofInt_eq_emod i)
  case recovers => exact exec_recovers_of_raisedKind (raisedKind_imm_of_bad s hbad) rfl
  case assembles =>
    have hasm : asmLine lt l = asmWord (.imm (indexOperand ops[0]?) (literalOperand ops[1]?)) :=
      asmLine_of_decodeT (lineDecodes_imm lt l cmd ops htok hcmd)
    constructor
    · intro hbad
      rw [hasm, hbad, asmWord_imm_bad]
    · intro i hlit hrange
      rw [hasm, hlit, asmWord_imm_eq_none _ hrange]

end Sys2Proof.Machine
end

section
/-! # Control transfers (43_control.md)

A transfer that is taken sets the Call Stack and the pc and nothing else, so that whether its target lies inside the program
shows only in the fetch of the next tick. Its word is of format J, and its line resolves the target by 30_encoding.md R78: a
label first, then a literal index. -/

namespace Sys2Proof

/-! ## Words -/

/-- A format J word with a target decodes by the row of its tag; `n` is the row's place in the table of R85. -/
theorem decodeW_wordJ_resolved (n : Nat) {tag : BitVec 2} {make : Nat → Instr}
    (hrow : decodeTable[n]? =
      some ⟨0xFFF0000F#32, wordJ tag 1#1 0#16, fun w => make (field16 w)⟩)
    (g : BitVec 16) : decodeW (wordJ tag 1#1 g) = make g.toNat := by
  rw [decodeW_of_row (List.mem_of_getElem? hrow) (beq_iff_eq.2 (wordJ_masked tag 1#1 g))]
  simp only [field16_wordJ]

/-- The word of JMP 00 is its fixed bits with the target in bits[19:4] (30_encoding.md R84). -/
theorem wordJ_jmp_eq (g : BitVec 16) :
    wordJ 0b00#2 1#1 g = 0xA2000000#32 ||| g.setWidth 32 <<< 4 := rfl

/-! ## Targets (30_encoding.md R78) -/

theorem number_eq_none_iff (k : Token) :
    number k = none ↔ decimal k = none ∧ negativeDecimal k = none := by
  unfold number
  cases decimal k with
  | some n => simp
  | none => cases negativeDecimal k <;> simp

theorem resolveTarget_of_label {lt : LabelTable} {k : Token} {g : Nat}
    (h : lookupLabel k lt = some g) : resolveTarget lt k = some (.resolved g) := by
  simp only [resolveTarget, h]

theorem resolveTarget_of_decimal {lt : LabelTable} {k : Token} {g : Nat}
    (hlabel : lookupLabel k lt = none) (h : decimal k = some g) :
    resolveTarget lt k = some (.resolved g) := by
  simp only [resolveTarget, hlabel, h]

theorem resolveTarget_of_not_number {lt : LabelTable} {k : Token}
    (hlabel : lookupLabel k lt = none) (h : number k = none) :
    resolveTarget lt k = some .unresolved := by
  obtain ⟨hdecimal, hnegative⟩ := (number_eq_none_iff k).1 h
  simp only [resolveTarget, hlabel, hdecimal, hnegative]

/-! ## Lines -/

/-- A line whose command token is `JMP` decodes by its tag and target. -/
theorem decodeT_of_jmp (lt : LabelTable) {l : Line} {cmd : Token} {ops : List Token}
    (htok : tokens l = cmd :: ops) (hcmd : upperToken cmd = "JMP".toList) :
    decodeT lt l = decodeJump lt ops := by
  have hmem : (upperToken cmd, Command.jmp) ∈ commandTable := hcmd ▸ by decide
  rw [decodeT_of_command lt htok hmem]
  simp only [decodeTokens, commandOf_of_mem hmem]

/-- R79: a target behind the tag `00` is that of a jump. -/
theorem decodeJump_00_resolved {lt : LabelTable} {k : Token} {g : Nat} (rest : List Token)
    (h : resolveTarget lt k = some (.resolved g)) :
    decodeJump lt ("00".toList :: k :: rest) = some (.jmp g) := by
  simp [decodeJump, h]

theorem decodeJump_00_unresolved {lt : LabelTable} {k : Token} (rest : List Token)
    (h : resolveTarget lt k = some .unresolved) :
    decodeJump lt ("00".toList :: k :: rest) = some .jmpU := by
  simp [decodeJump, h]

end Sys2Proof

namespace Sys2Proof.Machine

/-! ## Effect -/

theorem exec_jmp (g : Nat) (s : State) : exec (.jmp g) s = .next (s.setPc g) := rfl

theorem exec_call (g : Nat) (s : State) :
    exec (.call g) s = .next ((s.push (s.pc + 1)).setPc g) := rfl

theorem exec_ret_of_cons {s : State} {g : Nat} {rest : List Nat} (h : s.callStack = g :: rest) :
    exec .ret s = .next ((s.setCallStack rest).setPc g) := by
  simp only [exec, execRet, h]

theorem setPc_onlyPc (s : State) (g : Nat) : OnlyPc s (s.setPc g) :=
  ⟨fun _ => rfl, ⟨rfl, fun _ => rfl⟩, rfl, rfl, rfl, rfl⟩

/-- Settles O27: a taken jump is `setPc`, the unresolved one is an entry of the table of R201, and a line decodes as the
resolution of its target says. -/
theorem jmpSetsThePcExactly : Obligations.JmpSetsThePcExactly := by
  refine ⟨fun g s => ?taken, fun s => ?recovers, fun g => ?word, ?unresolvedWord,
    fun lt l cmd k rest htok hcmd => ?line⟩
  case taken => exact ⟨s.setPc g, exec_jmp g s, rfl, setPc_onlyPc s g⟩
  case recovers => exact exec_recovers_of_raisedKind (i := .jmpU) rfl rfl
  case word =>
    rw [← wordJ_jmp_eq]
    exact decodeW_wordJ_resolved 10 rfl g
  case unresolvedWord => decide
  case line =>
    rw [decodeT_of_jmp lt htok hcmd]
    refine ⟨fun g hlabel => ?_, fun g hlabel hdecimal => ?_, fun hlabel hnumber => ?_⟩
    · exact decodeJump_00_resolved rest (resolveTarget_of_label hlabel)
    · exact decodeJump_00_resolved rest (resolveTarget_of_decimal hlabel hdecimal)
    · exact decodeJump_00_unresolved rest (resolveTarget_of_not_number hlabel hnumber)

/-! ## Targets past the end (R177) -/

/-- R113: a running core executes the entry that it fetches. -/
theorem step_of_entry {s : State} {i : Instr} (hr : s.run = .running)
    (hf : fetch s.image s.pc = .entry i) : step s = exec i s.beginEntry := by
  simp only [step, hr, hf]

/-- R113: a running core at or past the end of its program finishes. -/
theorem step_of_pastEnd {s : State} (hr : s.run = .running) (hpc : imageLength s.image ≤ s.pc) :
    step s = .next s.finishProgram := by
  simp only [step, hr, (fetch_eq_pastEnd_iff s.image s.pc).2 hpc]

theorem finishProgram_halts (s : State) : HaltsWith .programFinished s s.finishProgram :=
  ⟨rfl, rfl, fun _ => rfl, ⟨rfl, fun _ => rfl⟩, rfl, rfl⟩

/-- Whatever a taken transfer leaves on the Call Stack, its target is not compared with the length of the program: the
core runs on, and it is the next tick that finds nothing to fetch. -/
theorem transfer_past_end_finishes {s : State} {i : Instr} {stack : List Nat} {g : Nat}
    (hr : s.run = .running) (hf : fetch s.image s.pc = .entry i) (hg : imageLength s.image ≤ g)
    (he : exec i s.beginEntry = .next ((s.beginEntry.setCallStack stack).setPc g)) :
    ∃ u v, step s = .next u ∧ u.pc = g ∧ u.callStack = stack ∧ u.run = .running ∧
      u.event = .none ∧ step u = .next v ∧ HaltsWith .programFinished u v := by
  have htaken := (step_of_entry hr hf).trans he
  exact ⟨_, _, htaken, rfl, rfl, hr, rfl, step_of_pastEnd hr hg, finishProgram_halts _⟩

/-- Settles O40: a jump, a call and a return differ only in the Call Stack that they leave. -/
theorem targetsAreNotRangeChecked : Obligations.TargetsAreNotRangeChecked := by
  intro s g hr hg
  refine ⟨fun hf => ?jump, fun hf => ?call, fun rest hf hstack => ?ret⟩
  case jump => exact transfer_past_end_finishes hr hf hg (exec_jmp g s.beginEntry)
  case call => exact transfer_past_end_finishes hr hf hg (exec_call g s.beginEntry)
  case ret =>
    have hpop : s.beginEntry.callStack = g :: rest := hstack
    exact transfer_past_end_finishes hr hf hg (exec_ret_of_cons hpop)

end Sys2Proof.Machine
end

section
/-! # Load and store (44_loadstore.md)

RLOD is a register write with the default advance, as the arithmetic instructions are. RSTR is the one instruction that
writes memory: in a memory of canonical form exactly the addressed cell changes. Both words are of format M, which has the
fields of format R2. -/

namespace Sys2Proof.Machine

/-! ## RLOD (R191) -/

theorem exec_rlod_num (a : RegIndex) (m : CellAddr) (s : State) :
    exec (.rlod (.num a) (.num m)) s = .next (s.writeReg a (s.memRead m)).advance := by
  simp [exec, execRlod]

/-- Settles O31: the byte written is the cell's, and a bad operand is the error of RLOD in the table of R201. -/
theorem rlodLoadsTheCell : Obligations.RlodLoadsTheCell := by
  refine ⟨fun a m s => ?loads, fun a m s hbad => ?recovers, decodeW_wordR2 16 rfl,
    lineDecodes_of_command .rlod (by decide) fun _ _ _ h => by simp only [decodeTokens, h]⟩
  case loads => exact exec_writes (R := fun v => v = s.memRead m) (exec_rlod_num a m s) rfl
  case recovers => exact exec_recovers_of_raisedKind (by simp [raisedKind, hbad]) rfl

/-! ## RSTR (R192) -/

theorem exec_rstr_num (a : RegIndex) (m : CellAddr) (s : State) :
    exec (.rstr (.num a) (.num m)) s = .next (s.memWrite m (s.readReg a)).advance := by
  simp [exec, execRstr]

theorem advance_memWrite_sameMemoryBut {s : State} (h : s.mem.wf = true) (m : CellAddr) (v : Byte) :
    SameMemoryBut m s (s.memWrite m v).advance :=
  fun _ hb => memRead_memWrite_ne h v hb

/-- Settles O32: the store is `memWrite`, whose read laws need the canonical form, and a bad operand is the error of RSTR
in the table of R201. -/
theorem rstrStoresTheRegister : Obligations.RstrStoresTheRegister := by
  refine ⟨fun a m s hwf => ?stores, fun a m s hbad => ?recovers, decodeW_wordR2 17 rfl,
    lineDecodes_of_command .rstr (by decide) fun _ _ _ h => by simp only [decodeTokens, h]⟩
  case stores =>
    have hcell : (s.memWrite m (s.readReg a)).advance.memRead m = s.readReg a :=
      memRead_memWrite_self hwf m (s.readReg a)
    exact ⟨_, exec_rstr_num a m s, hcell, advance_memWrite_sameMemoryBut hwf m (s.readReg a),
      fun _ => rfl, rfl, ⟨rfl, rfl, rfl⟩, rfl⟩
  case recovers => exact exec_recovers_of_raisedKind (by simp [raisedKind, hbad]) rfl

end Sys2Proof.Machine
end

section
/-! # The table of errors (60_exceptions.md R201, R204, R205)

An instruction that the table lists does nothing but raise (`exec_of_raisedKind`), so its effect is that of `State.raise`
on the kind's class. One that the table does not list writes a register or the memory, or moves the pc, the run state or the
Call Stack, and none of these updates reaches the event. -/

namespace Sys2Proof.Machine

/-- The class column of R201: every kind but `EmptyCallStack` is recoverable. -/
theorem isFatal_eq_false_iff (k : ErrorKind) : k.isFatal = false ↔ k ≠ .emptyCallStack := by
  cases k <;> simp [ErrorKind.isFatal]

/-- R204: a recoverable error leaves the state of a SKIP that logged. -/
theorem raise_eq_skip_setEvent (s : State) {k : ErrorKind} (h : k.isFatal = false) :
    ∃ u, exec .skip s = .next u ∧ s.raise k = u.setEvent k.event :=
  ⟨s.advance, rfl, raise_of_recoverable s h⟩

/-- The other half of `exec_of_raisedKind` (R201, "every other case raises nothing"): no unlisted case sets the event. -/
theorem exec_keeps_event_of_raisedKind_none {i : Instr} {s : State} (hk : raisedKind i s = none) :
    ∃ t, exec i s = .next t ∧ t.event = s.event := by
  cases exec_cases i s with
  | raises k hk' _ => simp [hk'] at hk
  | writesReg r v _ _ h => exact ⟨_, h, rfl⟩
  | writesMem _ a v _ _ h => exact ⟨_, h, rfl⟩
  | skips _ h => exact ⟨_, h, rfl⟩
  | halts _ h => exact ⟨_, h, rfl⟩
  | jumps t _ h => exact ⟨_, h, rfl⟩
  | calls t _ h => exact ⟨_, h, rfl⟩
  | returns t rest _ _ h => exact ⟨_, h, rfl⟩

/-- Settles O34: a listed instruction is one `State.raise`, whose effect the class of the kind decides; any other keeps
the event. -/
theorem errorsAreExactlyTheTable : Obligations.ErrorsAreExactlyTheTable := by
  refine fun i s => ⟨fun k hk hne => ?recovers, fun hk => ?halts,
    exec_keeps_event_of_raisedKind_none⟩
  case recovers =>
    have hr : k.isFatal = false := (isFatal_eq_false_iff k).2 hne
    exact ⟨s.raise k, exec_of_raisedKind hk, raise_recovers s hr, raise_eq_skip_setEvent s hr⟩
  case halts => exact ⟨_, exec_of_raisedKind hk, raise_emptyCallStack_halts s⟩

end Sys2Proof.Machine
end

section
/-! # Decode and encode agree (30_encoding.md Part C)

The word of an instruction holds `storedInstr` of it, read off the one row of the table of R85 that has its format and
opcode; a well-formed instruction is stored as it stands. The other direction goes by rows: a word that is not UNKNOWN
matches a row (`decodeW_cases`), its masked bits are the row's pattern, and the bits outside the mask are exactly the
fields that the row reads. -/

namespace Sys2Proof

/-! ## From the instruction to its word and back -/

/-- The operand that a word holds for `o` (R91). -/
def storedOperand (o : Operand) : Operand := .num o.field.toNat

/-- The instruction that the word of `i` holds (R91 to R93): operands and targets as their fields hold them, literals
modulo 65536, and the fixed word of an IMM with a bad literal. -/
def storedInstr : Instr → Instr
  | .add a b c => .add (storedOperand a) (storedOperand b) (storedOperand c)
  | .sub a b c => .sub (storedOperand a) (storedOperand b) (storedOperand c)
  | .or a b c => .or (storedOperand a) (storedOperand b) (storedOperand c)
  | .xor a b c => .xor (storedOperand a) (storedOperand b) (storedOperand c)
  | .and a b c => .and (storedOperand a) (storedOperand b) (storedOperand c)
  | .not a => .not (storedOperand a)
  | .rsh a b => .rsh (storedOperand a) (storedOperand b)
  | .imm a (.lit i) => .imm (storedOperand a) (.lit (i % 65536))
  | .imm _ .bad => .imm (.num 255) (.lit 0)
  | .jmp t => .jmp (t % 65536)
  | .call t => .call (t % 65536)
  | .rlod a m => .rlod (storedOperand a) (storedOperand m)
  | .rstr a m => .rstr (storedOperand a) (storedOperand m)
  | .skip => .skip
  | .noop => .noop
  | .jmpU => .jmpU
  | .callU => .callU
  | .ret => .ret
  | .jmpx => .jmpx
  | .unknown => .unknown

theorem toNat_ofInt_16 (i : Int) : ((BitVec.ofInt 16 i).toNat : Int) = i % 65536 := by
  rw [BitVec.toNat_ofInt]
  exact Int.toNat_of_nonneg (Int.emod_nonneg i (by decide))

/-- Every word is decoded by the row of R85 that has its format and opcode. -/
theorem decodeW_encode (i : Instr) : decodeW (encode i) = storedInstr i := by
  cases i with
  | skip | noop | jmpU | callU | ret | jmpx | unknown => decide
  | add a b c => exact decodeW_wordR3 2 (op := 0x2#4) (make := .add) rfl _ _ _
  | sub a b c => exact decodeW_wordR3 3 (op := 0x3#4) (make := .sub) rfl _ _ _
  | or a b c => exact decodeW_wordR3 4 (op := 0x4#4) (make := .or) rfl _ _ _
  | xor a b c => exact decodeW_wordR3 5 (op := 0x5#4) (make := .xor) rfl _ _ _
  | and a b c => exact decodeW_wordR3 6 (op := 0x6#4) (make := .and) rfl _ _ _
  | not a => exact decodeW_wordR1 7 (op := 0x7#4) (make := .not) rfl _
  | rsh a b => exact decodeW_wordR2 8 (op := 0x8#4) (make := .rsh) rfl _ _
  | imm a v =>
    cases v with
    | lit i => rw [encode, decodeW_wordI, toNat_ofInt_16, storedInstr, storedOperand]
    | bad => exact decodeW_wordI 0xFF#8 0#16
  | jmp t => exact decodeW_wordJ_resolved 10 (tag := 0b00#2) (make := .jmp) rfl (BitVec.ofNat 16 t)
  | call t => exact decodeW_wordJ_resolved 12 (tag := 0b10#2) (make := .call) rfl (BitVec.ofNat 16 t)
  | rlod a m => exact decodeW_wordR2 16 (op := 0xB#4) (make := .rlod) rfl _ _
  | rstr a m => exact decodeW_wordR2 17 (op := 0xC#4) (make := .rstr) rfl _ _

theorem storedOperand_of_wf {o : Operand} (h : o.wf = true) : storedOperand o = o :=
  field_toNat_of_wf h

theorem mod_65536_of_le {t : Nat} (h : t ≤ 65535) : t % 65536 = t := Nat.mod_eq_of_lt (by omega)

theorem emod_65536_of_wf {i : Int} (h : (Literal.lit i).wf = true) : i % 65536 = i := by
  simp only [Literal.wf, Bool.and_eq_true, decide_eq_true_eq] at h
  omega

/-- R75: a well-formed instruction is one that its word holds as it stands. -/
theorem storedInstr_of_wf {i : Instr} (h : i.wf = true) : storedInstr i = i := by
  cases i with
  | skip | noop | jmpU | callU | ret | jmpx | unknown => rfl
  | add | sub | or | xor | and =>
    simp only [Instr.wf, Bool.and_eq_true] at h
    obtain ⟨⟨ha, hb⟩, hc⟩ := h
    simp only [storedInstr, storedOperand_of_wf, ha, hb, hc]
  | rsh | rlod | rstr =>
    simp only [Instr.wf, Bool.and_eq_true] at h
    obtain ⟨ha, hb⟩ := h
    simp only [storedInstr, storedOperand_of_wf, ha, hb]
  | not => rw [storedInstr, storedOperand_of_wf h]
  | imm a v =>
    simp only [Instr.wf, Bool.and_eq_true] at h
    obtain ⟨ha, hv⟩ := h
    cases v with
    | lit i => rw [storedInstr, storedOperand_of_wf ha, emod_65536_of_wf hv]
    | bad => simp [Literal.wf] at hv
  | jmp | call => rw [storedInstr, mod_65536_of_le (of_decide_eq_true h)]

/-- Settles O2: the word holds the instruction as it stands. -/
theorem decodeOfEncodeIsTheInstruction : Obligations.DecodeOfEncodeIsTheInstruction :=
  fun i h => (decodeW_encode i).trans (storedInstr_of_wf h)

/-! ## From the word to its instruction and back -/

/-- A word matches a row and decodes by it, or matches none and is UNKNOWN (R85, R86). -/
theorem decodeW_cases (w : Word) :
    (∃ r ∈ decodeTable, w &&& r.mask = r.pattern ∧ decodeW w = r.build w) ∨
    ((∀ r ∈ decodeTable, ¬ w &&& r.mask = r.pattern) ∧ decodeW w = .unknown) := by
  by_cases h : ∃ r ∈ decodeTable, w &&& r.mask = r.pattern
  · obtain ⟨r, hr, hm⟩ := h
    exact .inl ⟨r, hr, hm, decodeW_of_row hr (beq_iff_eq.2 hm)⟩
  · have hno : ∀ r ∈ decodeTable, ¬ w &&& r.mask = r.pattern := fun r hr hm => h ⟨r, hr, hm⟩
    exact .inr ⟨hno, decodeW_of_no_row fun r hr => beq_eq_false_iff_ne.2 (hno r hr)⟩

/-- A word is its bits under a mask together with the others. -/
theorem or_unmasked_of_masked {w m p : Word} (h : w &&& m = p) : p ||| (w &&& ~~~m) = w := by
  rw [← h]
  ext i hi
  simp only [BitVec.getElem_or, BitVec.getElem_and, BitVec.getElem_not]
  cases w[i] <;> cases m[i] <;> rfl

/-! The fields of a format, put back in their places, are the bits outside the mask of its rows. -/

theorem wordR3_extract (op : BitVec 4) (w : Word) :
    wordR3 op (w.extractLsb' 20 8) (w.extractLsb' 12 8) (w.extractLsb' 4 8) =
      place op 28 ||| (w &&& ~~~0xF000000F#32) := by
  ext i hi
  interval_cases i <;> simp [wordR3, place]

theorem wordR1_extract (op : BitVec 4) (w : Word) :
    wordR1 op (w.extractLsb' 20 8) = place op 28 ||| (w &&& ~~~0xF00FFFFF#32) := by
  ext i hi
  interval_cases i <;> simp [wordR1, place]

theorem wordR2_extract (op : BitVec 4) (w : Word) :
    wordR2 op (w.extractLsb' 20 8) (w.extractLsb' 12 8) =
      place op 28 ||| (w &&& ~~~0xF0000FFF#32) := by
  ext i hi
  interval_cases i <;> simp [wordR2, place]

theorem wordI_extract (op : BitVec 4) (w : Word) :
    wordI op (w.extractLsb' 20 8) (w.extractLsb' 4 16) =
      place op 28 ||| (w &&& ~~~0xF000000F#32) := by
  ext i hi
  interval_cases i <;> simp [wordI, place]

theorem wordJ_extract (tag : BitVec 2) (r : BitVec 1) (w : Word) :
    wordJ tag r (w.extractLsb' 4 16) = wordJ tag r 0#16 ||| (w &&& ~~~0xFFF0000F#32) := by
  ext i hi
  interval_cases i <;> simp [wordJ, place]

/-- An operand read from an 8-bit field is encoded as that field. -/
theorem field_num_toNat (v : BitVec 8) : (Operand.num v.toNat).field = v := by
  have hv : v.toNat ≤ 255 := by omega
  rw [Operand.field, if_pos hv, BitVec.ofNat_toNat, BitVec.setWidth_eq]

@[simp] theorem field_fieldA (w : Word) : (fieldA w).field = w.extractLsb' 20 8 := field_num_toNat _
@[simp] theorem field_fieldB (w : Word) : (fieldB w).field = w.extractLsb' 12 8 := field_num_toNat _
@[simp] theorem field_fieldC (w : Word) : (fieldC w).field = w.extractLsb' 4 8 := field_num_toNat _

@[simp] theorem ofNat_field16 (w : Word) : BitVec.ofNat 16 (field16 w) = w.extractLsb' 4 16 := by
  rw [field16, BitVec.ofNat_toNat, BitVec.setWidth_eq]

@[simp] theorem ofInt_field16 (w : Word) : BitVec.ofInt 16 (field16 w) = w.extractLsb' 4 16 := by
  rw [BitVec.ofInt_natCast, ofNat_field16]

/-- Row by row: what a row builds encodes to the row's pattern and the bits that its mask leaves out. -/
theorem encode_build_of_mem (w : Word) : ∀ r ∈ decodeTable,
    encode (r.build w) = r.pattern ||| (w &&& ~~~r.mask) := by
  have hwhole : w &&& ~~~0xFFFFFFFF#32 = 0#32 := by ext i hi; interval_cases i <;> simp
  simp only [decodeTable, List.forall_mem_cons, encode, field_fieldA, field_fieldB, field_fieldC,
    ofNat_field16, ofInt_field16, wordR3_extract, wordR1_extract, wordR2_extract, wordI_extract,
    wordJ_extract, hwhole]
  simp [place, wordZ, wordJ]

/-- Settles O3: the row that the word matches gives it back. -/
theorem encodeOfDecodeIsTheWord : Obligations.EncodeOfDecodeIsTheWord := by
  intro w hw
  rcases decodeW_cases w with ⟨r, hr, hm, hd⟩ | ⟨-, hd⟩
  · rw [hd, encode_build_of_mem w r hr]
    exact or_unmasked_of_masked hm
  · exact absurd hd hw

end Sys2Proof
end

section
/-! # What a word can decode to (30_encoding.md Parts B and C)

What every row of the table of R85 builds is well formed, and a row is matched exactly when the opcode field is the row's
and the bits that R86 calls must-be-zero are zero, which says the reserved words by fields. -/

namespace Sys2Proof

/-- Settles O1: each word runs through the table. -/
theorem sampleWordsDecodeAsListed : Obligations.SampleWordsDecodeAsListed := by
  unfold Obligations.SampleWordsDecodeAsListed
  decide

/-- Settles O5: a word that two rows match would have both patterns on the bits of both masks. -/
theorem decodeRowsArePairwiseDisjoint : Obligations.DecodeRowsArePairwiseDisjoint := by
  refine fun w => decodeTable_patterns_differ.imp fun {r q} hne => ?_
  rw [Bool.and_eq_false_iff, ← Bool.not_eq_true, ← Bool.not_eq_true, ← not_and_or]
  exact fun ⟨hr, hq⟩ => hne (pattern_and_mask_of_both_match hr hq)

/-! ## Well-formedness (R75) -/

theorem num_toNat_wf (v : BitVec 8) : (Operand.num v.toNat).wf = true :=
  decide_eq_true (Nat.le_of_lt_succ v.isLt)

@[simp] theorem fieldA_wf (w : Word) : (fieldA w).wf = true := num_toNat_wf _
@[simp] theorem fieldB_wf (w : Word) : (fieldB w).wf = true := num_toNat_wf _
@[simp] theorem fieldC_wf (w : Word) : (fieldC w).wf = true := num_toNat_wf _

theorem field16_le (w : Word) : field16 w ≤ 65535 :=
  Nat.le_of_lt_succ (w.extractLsb' 4 16).isLt

@[simp] theorem lit_field16_wf (w : Word) : (Literal.lit (field16 w)).wf = true := by
  have h := field16_le w
  simp only [Literal.wf, Bool.and_eq_true, decide_eq_true_eq]
  omega

theorem build_wf_of_mem (w : Word) : ∀ r ∈ decodeTable, (r.build w).wf = true := by
  simp [decodeTable, Instr.wf, field16_le]

/-- Settles O4: whichever row matches builds a well-formed instruction, and so does the last one. -/
theorem everyWordDecodesToAWellFormedInstruction :
    Obligations.EveryWordDecodesToAWellFormedInstruction := by
  intro w
  rcases decodeW_cases w with ⟨r, hr, -, hd⟩ | ⟨-, hd⟩
  · rw [hd, build_wf_of_mem w r hr]
  · rw [hd, Instr.wf]

/-! ## Reserved words (R86) -/

theorem build_ne_unknown_of_mem (w : Word) : ∀ r ∈ decodeTable, r.build w ≠ .unknown := by
  simp [decodeTable]

/-- The rows of the table never build UNKNOWN, so a word is UNKNOWN exactly when no row matches. -/
theorem decodeW_eq_unknown_iff (w : Word) :
    decodeW w = .unknown ↔ ∀ r ∈ decodeTable, ¬ w &&& r.mask = r.pattern := by
  rcases decodeW_cases w with ⟨r, hr, hm, hd⟩ | ⟨hno, hd⟩
  · exact ⟨fun h => absurd (hd.symm.trans h) (build_ne_unknown_of_mem w r hr),
      fun h => absurd hm (h r hr)⟩
  · exact ⟨fun _ => hno, fun _ => hd⟩

theorem getLsbD_place_op (op : BitVec 4) {i : Nat} (hi : i < 32) :
    (place op 28).getLsbD i = (decide (28 ≤ i) && op.getLsbD (i - 28)) := by
  by_cases hl : i < 28
  · simp [place, hi, hl]
  · simp [place, hi, hl, Nat.not_lt.1 hl]

/-- The mask of a row that keeps the opcode and the lowest `k` bits. -/
def lowMask (k : Nat) : Word := place (BitVec.allOnes 4) 28 ||| (BitVec.allOnes k).setWidth 32

theorem getLsbD_lowMask (k : Nat) {i : Nat} (hi : i < 32) :
    (lowMask k).getLsbD i = (decide (28 ≤ i) || decide (i < k)) := by
  have h4 : i - 28 < 4 := by omega
  rw [lowMask, BitVec.getLsbD_or, getLsbD_place_op _ hi, BitVec.getLsbD_allOnes,
    BitVec.getLsbD_setWidth, BitVec.getLsbD_allOnes]
  simp [hi, h4]

/-- Such a row matches exactly when the opcode is its own and the lowest `k` bits, which must be zero, are. -/
theorem masked_low_iff (w : Word) (op : BitVec 4) {k : Nat} (hk : k ≤ 28) :
    w &&& lowMask k = place op 28 ↔ opField w = op ∧ w.extractLsb' 0 k = 0#k := by
  constructor
  · intro h
    have hbit (i : Nat) (hi : i < 32) := congrArg (BitVec.getLsbD · i) h
    simp only [BitVec.getLsbD_and] at hbit
    constructor
    · refine BitVec.eq_of_getLsbD_eq fun j hj => ?_
      have := hbit (28 + j) (by omega)
      rw [getLsbD_lowMask k (by omega), getLsbD_place_op op (by omega)] at this
      simpa [opField, hj] using this
    · refine BitVec.eq_of_getLsbD_eq fun j hj => ?_
      have := hbit j (by omega)
      rw [getLsbD_lowMask k (by omega), getLsbD_place_op op (by omega)] at this
      have hj28 : ¬ 28 ≤ j := by omega
      simpa [hj, hj28] using this
  · rintro ⟨rfl, h0⟩
    refine BitVec.eq_of_getLsbD_eq fun i hi => ?_
    have hlow : i < k → w.getLsbD i = false := by
      intro hik
      have := congrArg (BitVec.getLsbD · i) h0
      simpa [hik] using this
    rw [BitVec.getLsbD_and, getLsbD_lowMask k hi, getLsbD_place_op _ hi]
    by_cases h28 : 28 ≤ i
    · have h4 : i - 28 < 4 := by omega
      simp [h28, opField, h4]
    · by_cases hik : i < k <;> simp [h28, hik, hlow]

/-- A field that a mask keeps whole is the pattern's field. -/
theorem extract_of_masked {w m p : Word} (start len : Nat) (h : w &&& m = p)
    (hm : m.extractLsb' start len = BitVec.allOnes len) :
    w.extractLsb' start len = p.extractLsb' start len := by
  rw [← h, BitVec.extractLsb'_and, hm, BitVec.and_allOnes]

/-- The fields of a word of format J, but for the target. -/
theorem masked_J_eq (w : Word) : w &&& 0xFFF0000F#32 =
    place (opField w) 28 ||| place (w.extractLsb' 26 2) 26 ||| place (w.extractLsb' 25 1) 25 |||
      place (w.extractLsb' 20 5) 20 ||| place (w.extractLsb' 0 4) 0 := by
  ext i hi
  interval_cases i <;> simp [opField, place]

/-- A format J row with a target matches by all the other fields. -/
theorem masked_J_iff (w : Word) (tag : BitVec 2) (r : BitVec 1) :
    w &&& 0xFFF0000F#32 = wordJ tag r 0#16 ↔
      opField w = 0xA#4 ∧ w.extractLsb' 26 2 = tag ∧ w.extractLsb' 25 1 = r ∧
        w.extractLsb' 20 5 = 0#5 ∧ w.extractLsb' 0 4 = 0#4 := by
  constructor
  · intro h
    refine ⟨(opField_of_masked rfl h).trans (opField_wordJ tag r 0#16), ?_, ?_, ?_, ?_⟩
    · rw [extract_of_masked 26 2 h rfl]
      ext i hi; interval_cases i <;> simp [wordJ, place]
    · rw [extract_of_masked 25 1 h rfl]
      ext i hi; interval_cases i; simp [wordJ, place]
    · rw [extract_of_masked 20 5 h rfl]
      ext i hi; interval_cases i <;> simp [wordJ, place]
    · rw [extract_of_masked 0 4 h rfl]
      ext i hi; interval_cases i <;> simp [wordJ, place]
  · rintro ⟨hop, rfl, rfl, h20, h0⟩
    rw [masked_J_eq, hop, h20, h0]
    simp [wordJ, place]

/-- A format J row without a target has a mask of ones: its target field is zero as well. -/
theorem masked_J_zero_iff (w : Word) (tag : BitVec 2) (r : BitVec 1) :
    w &&& 0xFFFFFFFF#32 = wordJ tag r 0#16 ↔
      w &&& 0xFFF0000F#32 = wordJ tag r 0#16 ∧ w.extractLsb' 4 16 = 0#16 := by
  have hw : w &&& 0xFFFFFFFF#32 = w := BitVec.and_allOnes
  rw [hw]
  constructor
  · rintro rfl
    refine ⟨wordJ_masked tag r 0#16, ?_⟩
    ext i hi; interval_cases i <;> simp [wordJ, place]
  · rintro ⟨h, h16⟩
    have h := or_unmasked_of_masked h
    rw [← wordJ_extract, h16] at h
    exact h.symm

/-- The masks and patterns of rows 1 to 18, by opcode, tag and resolved bit. -/
theorem decodeTable_masks : decodeTable.map (fun r => (r.mask, r.pattern)) =
    [(lowMask 28, place 0x0#4 28), (lowMask 28, place 0x1#4 28), (lowMask 4, place 0x2#4 28),
      (lowMask 4, place 0x3#4 28), (lowMask 4, place 0x4#4 28), (lowMask 4, place 0x5#4 28),
      (lowMask 4, place 0x6#4 28), (lowMask 20, place 0x7#4 28), (lowMask 12, place 0x8#4 28),
      (lowMask 4, place 0x9#4 28), (0xFFF0000F#32, wordJ 0b00#2 1#1 0#16),
      (0xFFFFFFFF#32, wordJ 0b00#2 0#1 0#16), (0xFFF0000F#32, wordJ 0b10#2 1#1 0#16),
      (0xFFFFFFFF#32, wordJ 0b10#2 0#1 0#16), (0xFFFFFFFF#32, wordJ 0b01#2 0#1 0#16),
      (0xFFFFFFFF#32, wordJ 0b11#2 0#1 0#16), (lowMask 12, place 0xB#4 28),
      (lowMask 12, place 0xC#4 28)] := by decide

theorem opcode_cases (op : BitVec 4) : op = 0x0#4 ∨ op = 0x1#4 ∨ op = 0x2#4 ∨ op = 0x3#4 ∨
    op = 0x4#4 ∨ op = 0x5#4 ∨ op = 0x6#4 ∨ op = 0x7#4 ∨ op = 0x8#4 ∨ op = 0x9#4 ∨ op = 0xA#4 ∨
    op = 0xB#4 ∨ op = 0xC#4 ∨ op = 0xD#4 ∨ op = 0xE#4 ∨ op = 0xF#4 := by
  decide +revert

theorem tag_cases (tag : BitVec 2) : tag = 0b00#2 ∨ tag = 0b01#2 ∨ tag = 0b10#2 ∨ tag = 0b11#2 := by
  decide +revert

theorem resolvedBit_cases (r : BitVec 1) : r = 0#1 ∨ r = 1#1 := by
  decide +revert

/-- R86 by opcode: no row matches exactly when the fields are not what the rows of the opcode ask for. Under opcode 0xA
this is a comparison by tag and resolved bit (R84). -/
theorem no_row_iff (w : Word) :
    (∀ r ∈ decodeTable, ¬ w &&& r.mask = r.pattern) ↔ Machine.reservedWord w = true := by
  have hmap : (∀ r ∈ decodeTable, ¬ w &&& r.mask = r.pattern) ↔
      ∀ mp ∈ decodeTable.map (fun r => (r.mask, r.pattern)), ¬ w &&& mp.1 = mp.2 := by
    rw [List.forall_mem_map]
  have hop : w.extractLsb' 28 4 = opField w := rfl
  have htag : w.extractLsb' 26 1 = (w.extractLsb' 26 2).extractLsb' 0 1 := by
    ext i hi; interval_cases i; simp
  rw [hmap, decodeTable_masks]
  simp only [List.forall_mem_cons, masked_low_iff, masked_J_zero_iff, masked_J_iff, Nat.reduceLeDiff,
    Machine.reservedWord, htag, hop]
  by_cases hJ : opField w = 0xA#4
  · rcases tag_cases (w.extractLsb' 26 2) with ht | ht | ht | ht <;>
      rcases resolvedBit_cases (w.extractLsb' 25 1) with hr | hr <;>
      simp [hJ, ht, hr] <;> tauto
  · rcases opcode_cases (opField w) with h | h | h | h | h | h | h | h | h | h | h | h | h | h | h | h <;>
      simp_all

/-- Settles O6: the words that no row matches are the reserved ones. -/
theorem reservedWordsAreExactlyTheUnknownOnes : Obligations.ReservedWordsAreExactlyTheUnknownOnes :=
  fun w => (decodeW_eq_unknown_iff w).trans (no_row_iff w)

end Sys2Proof
end

section
/-! # What an instruction leaves unchanged (10_state.md section 2, 20_memory.md sections 1 and 4)

Every frame is read off `exec_cases`: registers change by a register write, memory by a memory write, the Call Stack by a
call or a return, and the image by nothing. -/

namespace Sys2Proof.Machine

/-- Settles O35: every case of `exec_cases` is a next state. -/
theorem everyInstructionAnswersNext : Obligations.EveryInstructionAnswersNext := by
  intro i s
  cases exec_cases i s with
  | writesReg _ _ _ _ h | writesMem _ _ _ _ _ h | raises _ _ h | skips _ h | halts _ h | jumps _ _ h
  | calls _ _ h | returns _ _ _ _ h => exact ⟨_, h⟩

/-- An outcome that is known to be a next state names it. -/
theorem next_unique {o : Host.Outcome State Fault Refusal} {t u : State} (ht : o = .next t)
    (hu : o = .next u) : t = u :=
  Host.Outcome.next.inj (ht.symm.trans hu)

theorem readReg_of_x_eq {s t : State} (h : t.x = s.x) (r : RegIndex) : t.readReg r = s.readReg r := by
  rw [State.readReg, State.readReg, h]

theorem memRead_of_mem_eq {s t : State} (h : t.mem = s.mem) (a : CellAddr) :
    t.memRead a = s.memRead a := by
  rw [State.memRead, State.memRead, h]

/-! ## Registers -/

/-- Settles O36: a register write is the only case that touches the registers, and it writes one of them. -/
theorem onlyTheDestinationRegisterChanges : Obligations.OnlyTheDestinationRegisterChanges := by
  intro i s t r ht hne
  have hkept (u : State) (h : exec i s = .next u) (hx : u.x = s.x) :
      destination i = some (.num r) :=
    absurd (readReg_of_x_eq (next_unique ht h ▸ hx) r) hne
  cases exec_cases i s with
  | writesReg q v hd _ h =>
    by_cases hq : r = q
    · rw [hd, hq]
    · obtain rfl := next_unique ht h
      exact absurd (readReg_writeReg_ne s v hq) hne
  | raises k _ h => exact hkept _ h (raise_keeps s k).1
  | writesMem _ _ _ _ _ h | skips _ h | halts _ h | jumps _ _ h | calls _ _ h | returns _ _ _ _ h =>
    exact hkept _ h rfl

/-! ## Memory, Call Stack and image -/

/-- Memory is as before, or the instruction is an RSTR and one cell was written. -/
theorem exec_mem_cases {i : Instr} {s t : State} (ht : exec i s = .next t) :
    t.mem = s.mem ∨ ∃ (o : Operand) (a : CellAddr) (v : Byte),
      i = .rstr o (.num a) ∧ t.mem = (s.memWrite a v).mem := by
  cases exec_cases i s with
  | writesMem o a v hi _ h => exact .inr ⟨o, a, v, hi, next_unique ht h ▸ rfl⟩
  | raises k _ h => exact .inl (next_unique ht h ▸ (raise_keeps s k).2.1)
  | writesReg _ _ _ _ h | skips _ h | halts _ h | jumps _ _ h | calls _ _ h | returns _ _ _ _ h =>
    exact .inl (next_unique ht h ▸ rfl)

/-- The Call Stack is as before, or a CALL pushed the index after it, or a RET popped the top. -/
theorem exec_callStack_cases {i : Instr} {s t : State} (ht : exec i s = .next t) :
    t.callStack = s.callStack ∨ (∃ g, i = .call g ∧ t.callStack = (s.pc + 1) :: s.callStack) ∨
      (i = .ret ∧ ∃ g, s.callStack = g :: t.callStack) := by
  cases exec_cases i s with
  | calls g hi h => exact .inr (.inl ⟨g, hi, next_unique ht h ▸ rfl⟩)
  | returns g rest hi hs h => exact .inr (.inr ⟨hi, g, next_unique ht h ▸ hs⟩)
  | raises k _ h =>
    obtain ⟨-, -, hstack, -⟩ := raise_keeps s k
    exact .inl (next_unique ht h ▸ hstack)
  | writesReg _ _ _ _ h | writesMem _ _ _ _ _ h | skips _ h | halts _ h | jumps _ _ h =>
    exact .inl (next_unique ht h ▸ rfl)

theorem exec_image {i : Instr} {s t : State} (ht : exec i s = .next t) : t.image = s.image := by
  cases exec_cases i s with
  | raises k _ h =>
    obtain ⟨-, -, -, himage, -⟩ := raise_keeps s k
    exact next_unique ht h ▸ himage
  | writesReg _ _ _ _ h | writesMem _ _ _ _ _ h | skips _ h | halts _ h | jumps _ _ h | calls _ _ h
  | returns _ _ _ _ h => exact next_unique ht h ▸ rfl

/-- A cell that an instruction changes in a canonical memory is the one that an RSTR names. -/
theorem exec_memRead_ne {i : Instr} {s t : State} {a : CellAddr} (hwf : s.mem.wf = true)
    (ht : exec i s = .next t) (hne : t.memRead a ≠ s.memRead a) : ∃ o, i = .rstr o (.num a) := by
  rcases exec_mem_cases ht with hm | ⟨o, b, v, hi, hm⟩
  · exact absurd (memRead_of_mem_eq hm a) hne
  · by_cases hab : a = b
    · exact ⟨o, hab ▸ hi⟩
    · exact absurd ((memRead_of_mem_eq hm a).trans (memRead_memWrite_ne hwf v hab)) hne

/-! ## No instruction reads the image, and none but RLOD reads memory -/

/-- The state with another memory and another image. -/
def State.withStores (s : State) (m : Memory) (im : Image) : State := { s with mem := m, image := im }

/-- The meaning `f` gives with any other memory and image the same next state but for these two, and for the image alone
if the memory is the same. -/
def IgnoresStores (f : State → Host.Outcome State Fault Refusal) : Prop :=
  ∀ (s : State) (m : Memory) (im : Image), ∃ t m', f s = .next t ∧
    f (s.withStores m im) = .next (t.withStores m' im) ∧ (m = s.mem → m' = t.mem)

theorem aluThree_ignoresStores (f : Byte → Byte → Byte) (a b c : Operand) :
    IgnoresStores (aluThree f a b c) := by
  intro s m im
  unfold aluThree
  rcases regOf a with _ | ra
  · exact ⟨_, m, rfl, rfl, id⟩
  rcases regOf b with _ | rb
  · exact ⟨_, m, rfl, rfl, id⟩
  rcases regOf c with _ | rc <;> exact ⟨_, m, rfl, rfl, id⟩

theorem execNot_ignoresStores (a : Operand) : IgnoresStores (execNot a) := by
  intro s m im
  unfold execNot
  rcases regOf a with _ | ra <;> exact ⟨_, m, rfl, rfl, id⟩

theorem execRsh_ignoresStores (a b : Operand) : IgnoresStores (execRsh a b) := by
  intro s m im
  unfold execRsh
  rcases regOf a with _ | ra
  · exact ⟨_, m, rfl, rfl, id⟩
  rcases regOf b with _ | rb <;> exact ⟨_, m, rfl, rfl, id⟩

theorem execImm_ignoresStores (a : Operand) (v : Literal) : IgnoresStores (execImm a v) := by
  intro s m im
  unfold execImm
  rcases regOf a with _ | ra
  · exact ⟨_, m, rfl, rfl, id⟩
  rcases literalByte v with _ | b <;> exact ⟨_, m, rfl, rfl, id⟩

theorem execRstr_ignoresStores (a o : Operand) : IgnoresStores (execRstr a o) := by
  intro s m im
  unfold execRstr
  rcases regOf a with _ | ra
  · exact ⟨_, m, rfl, rfl, id⟩
  rcases cellOf o with _ | cell
  · exact ⟨_, m, rfl, rfl, id⟩
  · exact ⟨_, memSet m cell (s.readReg ra), rfl, rfl, fun hm => hm ▸ rfl⟩

theorem execRet_ignoresStores : IgnoresStores execRet := by
  intro s m im
  have hstack : (s.withStores m im).callStack = s.callStack := rfl
  unfold execRet
  rw [hstack]
  rcases s.callStack with _ | ⟨g, rest⟩ <;> exact ⟨_, m, rfl, rfl, id⟩

theorem exec_ignoresStores {i : Instr} (hi : ∀ o a, i ≠ .rlod o a) : IgnoresStores (exec i) := by
  cases i with
  | rlod o a => exact absurd rfl (hi o a)
  | add a b c => exact aluThree_ignoresStores (fun va vb => vb + va) a b c
  | sub a b c => exact aluThree_ignoresStores (fun va vb => vb - va) a b c
  | or a b c => exact aluThree_ignoresStores _ a b c
  | xor a b c => exact aluThree_ignoresStores _ a b c
  | and a b c => exact aluThree_ignoresStores _ a b c
  | not a => exact execNot_ignoresStores a
  | rsh a b => exact execRsh_ignoresStores a b
  | imm a v => exact execImm_ignoresStores a v
  | rstr a m => exact execRstr_ignoresStores a m
  | ret => exact execRet_ignoresStores
  | skip | noop | jmp | jmpU | call | callU | jmpx | unknown =>
    exact fun s m im => ⟨_, m, rfl, rfl, id⟩

theorem execRlod_setImage (a o : Operand) (s : State) (im : Image) :
    ∃ t, execRlod a o s = .next t ∧ execRlod a o (s.setImage im) = .next (t.setImage im) := by
  unfold execRlod
  rcases regOf a with _ | ra
  · exact ⟨_, rfl, rfl⟩
  rcases cellOf o with _ | cell <;> exact ⟨_, rfl, rfl⟩

/-- No instruction reads the image: with another one the next state differs in the image alone. -/
theorem exec_setImage {i : Instr} {s t : State} (im : Image) (h : exec i s = .next t) :
    exec i (s.setImage im) = .next (t.setImage im) := by
  by_cases hi : ∀ o a, i ≠ .rlod o a
  · obtain ⟨u, m', hu, him, hm⟩ := exec_ignoresStores hi s s.mem im
    obtain rfl := hm rfl
    exact next_unique h hu ▸ him
  · obtain ⟨o, a, rfl⟩ : ∃ o a, i = .rlod o a := by simpa using hi
    obtain ⟨u, hu, him⟩ := execRlod_setImage o a s im
    exact next_unique h hu ▸ him

/-- Settles O37: the frames of memory, Call Stack and image, and the independence from memory of all but RLOD. -/
theorem storageChangesOnlyByItsOwnInstructions :
    Obligations.StorageChangesOnlyByItsOwnInstructions := by
  refine ⟨fun i s t ht => ⟨fun hwf a => exec_memRead_ne hwf ht, fun hne => ?memory,
    fun hne => ?callStack, exec_image ht⟩, fun i s t m hi ht => ?reads⟩
  case memory =>
    rcases exec_mem_cases ht with hm | ⟨o, a, _, hi, -⟩
    · exact absurd hm hne
    · exact ⟨o, _, hi⟩
  case callStack =>
    rcases exec_callStack_cases ht with hs | ⟨g, hi, -⟩ | ⟨hi, -⟩
    · exact absurd hs hne
    · exact .inl ⟨g, hi⟩
    · exact .inr hi
  case reads =>
    obtain ⟨u, m', hu, hm, -⟩ := exec_ignoresStores hi s m s.image
    obtain rfl := next_unique ht hu
    exact ⟨t.withStores m' s.image, hm, rfl, rfl, rfl, rfl, (exec_image ht).symm, rfl⟩

/-! ## Runs of ticks -/

/-- A tick executes an entry, or changes only the run state and the event. -/
theorem step_eq_next_cases {s t : State} (h : step s = .next t) :
    (t.x = s.x ∧ t.mem = s.mem ∧ t.callStack = s.callStack ∧ t.image = s.image) ∨
    ∃ i, s.run = .running ∧ fetch s.image s.pc = .entry i ∧ exec i s.beginEntry = .next t := by
  rcases step_cases s with ⟨-, hs⟩ | ⟨-, -, hs⟩ | ⟨-, -, hs⟩ | ⟨i, hr, hf, hs⟩
  · obtain rfl := next_unique h hs
    exact .inl ⟨rfl, rfl, rfl, rfl⟩
  · obtain rfl := next_unique h hs
    exact .inl ⟨rfl, rfl, rfl, rfl⟩
  · simp [hs] at h
  · exact .inr ⟨i, hr, hf, hs.symm.trans h⟩

theorem step_image {s t : State} (h : step s = .next t) : t.image = s.image := by
  rcases step_eq_next_cases h with ⟨-, -, -, himage⟩ | ⟨i, -, -, he⟩
  · exact himage
  · exact exec_image (s := s.beginEntry) he

theorem ticks_image {k : Nat} {s t : State} (h : ticks k s = .next t) : t.image = s.image := by
  induction k generalizing s with
  | zero =>
    obtain rfl : s = t := Host.Outcome.next.inj h
    rfl
  | succ k ih =>
    obtain ⟨u, hu, ht⟩ := (ticks_succ_eq_next_iff k s t).1 h
    exact (ih ht).trans (step_image hu)

/-- Settles O38: no tick changes the image, and `start` loads the one that it is given. -/
theorem ticksNeverChangeTheProgram : Obligations.TicksNeverChangeTheProgram := by
  refine ⟨fun k s t h => ticks_image h, fun s t im h => ?_⟩
  obtain ⟨-, rfl⟩ := (start_eq_next_iff im s t).1 h
  exact State.load_image s im

theorem exec_mem_wf {i : Instr} {s t : State} (hwf : s.mem.wf = true) (h : exec i s = .next t) :
    t.mem.wf = true := by
  rcases exec_mem_cases h with hm | ⟨_, a, v, -, hm⟩
  · rw [hm, hwf]
  · rw [hm, memWrite_wf hwf a v]

theorem step_mem_wf {s t : State} (hwf : s.mem.wf = true) (h : step s = .next t) :
    t.mem.wf = true := by
  rcases step_eq_next_cases h with ⟨-, hm, -⟩ | ⟨i, -, -, he⟩
  · rw [hm, hwf]
  · exact exec_mem_wf (s := s.beginEntry) hwf he

/-- A tick that executes no RSTR to a cell keeps it. -/
theorem step_memRead {s t : State} {a : CellAddr} (hwf : s.mem.wf = true) (h : step s = .next t)
    (hno : s.run = .running → ∀ o, fetch s.image s.pc ≠ .entry (.rstr o (.num a))) :
    t.memRead a = s.memRead a := by
  rcases step_eq_next_cases h with ⟨-, hm, -⟩ | ⟨i, hr, hf, he⟩
  · exact memRead_of_mem_eq hm a
  · by_contra hne
    obtain ⟨o, rfl⟩ := exec_memRead_ne (s := s.beginEntry) hwf he hne
    exact hno hr o hf

/-- Settles O39, by induction on the number of ticks; the canonical form is kept along the run. -/
theorem aCellKeepsItsValueUntilTheNextStore : Obligations.ACellKeepsItsValueUntilTheNextStore := by
  intro k
  induction k with
  | zero =>
    intro s t a _ h _
    obtain rfl : s = t := Host.Outcome.next.inj h
    rfl
  | succ k ih =>
    intro s t a hwf h hno
    obtain ⟨u, hu, ht⟩ := (ticks_succ_eq_next_iff k s t).1 h
    have hfirst : u.memRead a = s.memRead a := step_memRead hwf hu (hno 0 s (by omega) rfl)
    have hrest : t.memRead a = u.memRead a := by
      refine ih u t a (step_mem_wf hwf hu) ht fun j v hj hv => ?_
      exact hno (j + 1) v (by omega) ((ticks_succ_eq_next_iff j s v).2 ⟨u, hu, hv⟩)
    exact hrest.trans hfirst

end Sys2Proof.Machine
end

section
/-! # Control flow over runs (43_control.md sections 1 and 3)

A return finds the index that its call pushed because a tick pushes one entry, pops one or leaves the Call Stack: what lies
below a depth that is never reached again stays. And no register or cell decides the next pc, Call Stack, run state or
event: `controlEffect` says all four from the instruction and the Call Stack. -/

namespace Sys2Proof.Machine

/-! ## The stack discipline -/

/-- One tick leaves the Call Stack, pushes one entry on it or pops one. -/
theorem step_callStack_cases {s t : State} (h : step s = .next t) :
    t.callStack = s.callStack ∨ (∃ e, t.callStack = e :: s.callStack) ∨
      ∃ e, s.callStack = e :: t.callStack := by
  rcases step_eq_next_cases h with ⟨-, -, hs, -⟩ | ⟨i, -, -, he⟩
  · exact .inl hs
  · rcases exec_callStack_cases he with hs | ⟨_, -, hs⟩ | ⟨-, e, hs⟩
    · exact .inl hs
    · exact .inr (.inl ⟨_, hs⟩)
    · exact .inr (.inr ⟨e, hs⟩)

/-- The lowest entries of the Call Stack stay under a tick that leaves it as deep as they are. -/
theorem step_keeps_bottom {s t : State} {bottom : List Nat} (h : step s = .next t)
    (hs : bottom <:+ s.callStack) (ht : bottom.length ≤ t.callStack.length) :
    bottom <:+ t.callStack := by
  rcases step_callStack_cases h with hsame | ⟨e, hpush⟩ | ⟨e, hpop⟩
  · exact hsame ▸ hs
  · exact hpush ▸ hs.trans (List.suffix_cons e s.callStack)
  · rw [hpop, List.suffix_cons_iff] at hs
    refine hs.resolve_left fun heq => ?_
    rw [heq, List.length_cons] at ht
    omega

theorem ticks_keep_bottom {k : Nat} {s t : State} {bottom : List Nat} (h : ticks k s = .next t)
    (hs : bottom <:+ s.callStack)
    (hdeep : ∀ j u, j ≤ k → ticks j s = .next u → bottom.length ≤ u.callStack.length) :
    bottom <:+ t.callStack := by
  induction k generalizing s with
  | zero =>
    obtain rfl : s = t := Host.Outcome.next.inj h
    exact hs
  | succ k ih =>
    obtain ⟨u, hu, ht⟩ := (ticks_succ_eq_next_iff k s t).1 h
    have hlater (j : Nat) (v : State) (hj : j ≤ k) (hv : ticks j u = .next v) :
        bottom.length ≤ v.callStack.length :=
      hdeep (j + 1) v (by omega) ((ticks_succ_eq_next_iff j s v).2 ⟨u, hu, hv⟩)
    exact ih ht (step_keeps_bottom hu hs (hlater 0 u (by omega) rfl)) hlater

/-- Settles O41: the entry that the CALL pushed and the stack below it stay until the RET, which finds nothing above. -/
theorem returnResumesAfterItsCall : Obligations.ReturnResumesAfterItsCall := by
  intro s v g k hr hcall hv hdeep hdepth hrv hret
  obtain ⟨u, hu, hkv⟩ := (ticks_succ_eq_next_iff k s v).1 hv
  have hustack : u.callStack = (s.pc + 1) :: s.callStack := by
    have he := (step_of_entry hr hcall).trans (exec_call g s.beginEntry)
    exact next_unique hu he ▸ rfl
  have hbottom : (s.pc + 1) :: s.callStack <:+ v.callStack := by
    refine ticks_keep_bottom hkv (hustack ▸ List.suffix_refl _) fun j w hj hw => ?_
    exact hdeep j w hj ((ticks_succ_eq_next_iff j s w).2 ⟨u, hu, hw⟩)
  have hvstack : v.beginEntry.callStack = (s.pc + 1) :: s.callStack :=
    (hbottom.eq_of_length (by simp [hdepth])).symm
  exact ⟨_, (step_of_entry hrv hret).trans (exec_ret_of_cons hvstack), rfl, rfl, hrv⟩

/-! ## Control flow ignores registers and memory -/

theorem SameControl.refl (s : State) : SameControl s s := ⟨rfl, rfl, rfl, rfl, rfl⟩

theorem SameControl.symm {s t : State} (h : SameControl s t) : SameControl t s := by
  obtain ⟨hstack, hpc, hrun, himage, hevent⟩ := h
  exact ⟨hstack.symm, hpc.symm, hrun.symm, himage.symm, hevent.symm⟩

theorem SameControl.trans {s t u : State} (h : SameControl s t) (h' : SameControl t u) :
    SameControl s u := by
  obtain ⟨hstack, hpc, hrun, himage, hevent⟩ := h
  obtain ⟨hstack', hpc', hrun', himage', hevent'⟩ := h'
  exact ⟨hstack'.trans hstack, hpc'.trans hpc, hrun'.trans hrun, himage'.trans himage,
    hevent'.trans hevent⟩

/-- What an instruction that raises nothing does to the Call Stack, the pc and the run state. -/
def controlMove (i : Instr) (s : State) : State :=
  match i, s.callStack with
  | .noop, _ => s.setRun .halted
  | .jmp g, _ => s.setPc g
  | .call g, _ => (s.push (s.pc + 1)).setPc g
  | .ret, g :: rest => (s.setCallStack rest).setPc g
  | _, _ => s.advance

/-- What an instruction does to the Call Stack, the pc, the run state and the event. -/
def controlEffect (i : Instr) (s : State) : State :=
  match raisedKind i s with
  | some k => s.raise k
  | none => controlMove i s

theorem controlMove_of_destination {i : Instr} {o : Operand} (s : State)
    (h : destination i = some o) : controlMove i s = s.advance := by
  cases i with
  | noop | jmp | call | ret => simp [destination] at h
  | _ => rfl

theorem controlMove_ret_of_cons {s : State} {g : Nat} {rest : List Nat}
    (h : s.callStack = g :: rest) : controlMove .ret s = (s.setCallStack rest).setPc g := by
  unfold controlMove
  rw [h]

/-- `controlEffect` is the control part of `exec`. -/
theorem exec_sameControl_controlEffect (i : Instr) (s : State) :
    ∃ t, exec i s = .next t ∧ SameControl (controlEffect i s) t := by
  have hmove (hk : raisedKind i s = none) : controlEffect i s = controlMove i s := by
    rw [controlEffect, hk]
  cases exec_cases i s with
  | raises k hk h =>
    have heffect : controlEffect i s = s.raise k := by rw [controlEffect, hk]
    exact ⟨_, h, heffect ▸ SameControl.refl _⟩
  | writesReg r v hd hk h =>
    refine ⟨_, h, ?_⟩
    rw [hmove hk, controlMove_of_destination s hd]
    exact ⟨rfl, rfl, rfl, rfl, rfl⟩
  | writesMem o a v hi hk h =>
    refine ⟨_, h, ?_⟩
    rw [hmove hk, hi]
    exact ⟨rfl, rfl, rfl, rfl, rfl⟩
  | skips hi h | halts hi h | jumps _ hi h | calls _ hi h =>
    subst hi
    exact ⟨_, h, SameControl.refl _⟩
  | returns g rest hi hs h =>
    subst hi
    refine ⟨_, h, ?_⟩
    rw [hmove (by simp [raisedKind, hs]), controlMove_ret_of_cons hs]
    exact SameControl.refl _

/-- Of the state, the table of R201 reads the Call Stack only. -/
theorem raisedKind_congr (i : Instr) {s t : State} (h : t.callStack = s.callStack) :
    raisedKind i t = raisedKind i s := by
  unfold raisedKind
  rw [h]

theorem raise_sameControl (k : ErrorKind) {s t : State} (h : SameControl s t) :
    SameControl (s.raise k) (t.raise k) := by
  obtain ⟨hstack, hpc, hrun, himage, -⟩ := h
  cases hk : k.isFatal with
  | true =>
    rw [raise_of_fatal s hk, raise_of_fatal t hk]
    exact ⟨hstack, hpc, rfl, himage, rfl⟩
  | false =>
    rw [raise_of_recoverable s hk, raise_of_recoverable t hk]
    exact ⟨hstack, congrArg (· + 1) hpc, hrun, himage, rfl⟩

theorem controlMove_sameControl (i : Instr) {s t : State} (h : SameControl s t) :
    SameControl (controlMove i s) (controlMove i t) := by
  have ⟨hstack, hpc, hrun, himage, hevent⟩ := h
  have hadvance : SameControl s.advance t.advance :=
    ⟨hstack, congrArg (· + 1) hpc, hrun, himage, hevent⟩
  cases i with
  | noop => exact ⟨hstack, hpc, rfl, himage, hevent⟩
  | jmp g => exact ⟨hstack, rfl, hrun, himage, hevent⟩
  | call g => exact ⟨by simp [controlMove, hstack, hpc], rfl, hrun, himage, hevent⟩
  | ret =>
    unfold controlMove
    rw [hstack]
    cases s.callStack with
    | nil => exact hadvance
    | cons g rest => exact ⟨rfl, rfl, hrun, himage, hevent⟩
  | _ => exact hadvance

theorem exec_sameControl (i : Instr) {s s' t : State} (h : SameControl s s')
    (ht : exec i s = .next t) : ∃ t', exec i s' = .next t' ∧ SameControl t t' := by
  obtain ⟨u, hu, hsu⟩ := exec_sameControl_controlEffect i s
  obtain ⟨u', hu', hsu'⟩ := exec_sameControl_controlEffect i s'
  have heffect : SameControl (controlEffect i s) (controlEffect i s') := by
    have hkind := raisedKind_congr i h.1
    unfold controlEffect
    rw [hkind]
    cases raisedKind i s with
    | none => exact controlMove_sameControl i h
    | some k => exact raise_sameControl k h
  obtain rfl := next_unique ht hu
  exact ⟨u', hu', hsu.symm.trans (heffect.trans hsu')⟩

theorem step_sameControl {s s' t : State} (h : SameControl s s') (ht : step s = .next t) :
    ∃ t', step s' = .next t' ∧ SameControl t t' := by
  obtain ⟨hstack, hpc, hrun, himage, -⟩ := h
  rcases step_cases s with ⟨hr, hs⟩ | ⟨hr, hf, hs⟩ | ⟨-, -, hs⟩ | ⟨i, hr, hf, hs⟩
  · obtain rfl := next_unique ht hs
    exact ⟨_, step_of_not_running (hrun ▸ hr), hstack, hpc, hrun, himage, rfl⟩
  · obtain rfl := next_unique ht hs
    have hend : imageLength s'.image ≤ s'.pc := by
      rw [himage, hpc]
      exact (fetch_eq_pastEnd_iff _ _).1 hf
    exact ⟨_, step_of_pastEnd (hrun.trans hr) hend, hstack, hpc, rfl, himage, rfl⟩
  · simp [hs] at ht
  · have hf' : fetch s'.image s'.pc = .entry i := by rw [himage, hpc, hf]
    have hbegin : SameControl s.beginEntry s'.beginEntry := ⟨hstack, hpc, hrun, himage, rfl⟩
    rw [step_of_entry (hrun.trans hr) hf']
    exact exec_sameControl i hbegin (hs.symm.trans ht)

theorem stop_sameControl {s s' : State} (h : SameControl s s') : SameControl s.stop s'.stop := by
  obtain ⟨hstack, hpc, hrun, himage, -⟩ := h
  rw [stop_eq, stop_eq, hrun]
  split
  · exact ⟨hstack, hpc, rfl, himage, rfl⟩
  · exact ⟨hstack, hpc, hrun, himage, rfl⟩

theorem input_sameControl (e : InputEvent) {s s' t : State} (h : SameControl s s')
    (ht : input e s = .next t) : ∃ t', input e s' = .next t' ∧ SameControl t t' := by
  cases e with
  | reset => exact ⟨t, ht, SameControl.refl t⟩
  | start im =>
    obtain ⟨him, rfl⟩ := (start_eq_next_iff im s t).1 ht
    exact ⟨s'.load im, (start_eq_next_iff im s' _).2 ⟨him, rfl⟩, rfl, rfl, rfl, rfl, rfl⟩
  | stop =>
    obtain rfl : s.stop = t := Host.Outcome.next.inj ht
    exact ⟨s'.stop, rfl, stop_sameControl h⟩
  | tick => exact step_sameControl h ht

/-- Settles O42: agreement on the control state is kept by every input event. -/
theorem controlFlowIgnoresRegistersAndMemory : Obligations.ControlFlowIgnoresRegistersAndMemory := by
  intro es
  induction es with
  | nil =>
    intro s s' t h ht
    obtain rfl : s = t := Host.Outcome.next.inj ht
    exact ⟨s', rfl, h⟩
  | cons e es ih =>
    intro s s' t h ht
    obtain ⟨u, hu, hrest⟩ := (runInputs_cons_eq_next_iff e es s t).1 ht
    obtain ⟨u', hu', huu'⟩ := input_sameControl e h hu
    obtain ⟨t', ht', htt'⟩ := ih u u' t huu' hrest
    exact ⟨t', (runInputs_cons_eq_next_iff e es s' t').2 ⟨u', hu', ht'⟩, htt'⟩

/-! ## The event output (60_exceptions.md section 2) -/

/-- Every input event sets the event output before it could read it. -/
theorem input_setEvent (i : InputEvent) (s : State) (e : Event) :
    input i (s.setEvent e) = input i s := by
  cases i with
  | reset | start | stop | tick => rfl

/-- Settles O43: the first input event leaves nothing of the event output. -/
theorem noInputReadsTheReportedEvent : Obligations.NoInputReadsTheReportedEvent := by
  intro s e i es
  simp only [runInputs, input_setEvent]

end Sys2Proof.Machine
end

section
/-! # The sequencer and the input events (40_sequencer.md) -/

namespace Sys2Proof.Machine

/-! ## One tick (R113) -/

theorem fetch_words_of_getElem? {P : List Word} {n : Nat} {w : Word} (h : P[n]? = some w) :
    fetch (.words P) n = .entry (decodeW w) := by
  simp only [fetch, h]

theorem fetch_text_of_getElem? {lines : List Line} {lt : LabelTable} {n : Nat} {l : Line} {i : Instr}
    (h : lines[n]? = some l) (hd : decodeT lt l = some i) : fetch (.text lines lt) n = .entry i := by
  simp only [fetch, h, hd]

/-- Settles O7: what is fetched is the decoded entry, at both levels. -/
theorem stepExecutesTheEntryAtThePc : Obligations.StepExecutesTheEntryAtThePc := by
  have hword (s : State) (P : List Word) (w : Word) (hr : s.run = .running) (him : s.image = .words P)
      (hw : P[s.pc]? = some w) : step s = exec (decodeW w) s.beginEntry :=
    step_of_entry hr (him ▸ fetch_words_of_getElem? hw)
  refine ⟨hword, fun s P i hr him hi hw => ?_, fun s lines lt l i hr him hl hd => ?_⟩
  · rw [hword s P _ hr him hw, decodeOfEncodeIsTheInstruction i hi]
  · exact step_of_entry hr (him ▸ fetch_text_of_getElem? hl hd)

/-- Settles O8: such a tick is `State.finishProgram`. -/
theorem endOfProgramHaltsTheRun : Obligations.EndOfProgramHaltsTheRun :=
  fun s hr hpc => ⟨s.finishProgram, step_of_pastEnd hr hpc, finishProgram_halts s⟩

/-! ## The run state (R120) -/

/-- R205: an error halts the run exactly when it is the fatal one. -/
theorem raise_run (s : State) (k : ErrorKind) :
    (s.raise k).run = if k = .emptyCallStack then .halted else s.run := by
  cases k <;> rfl

/-- Only NOOP, and RET on an empty Call Stack, change the run state. -/
theorem exec_run {i : Instr} {s t : State} (ht : exec i s = .next t) :
    t.run = if i = .noop ∨ (i = .ret ∧ s.callStack = []) then .halted else s.run := by
  cases exec_cases i s with
  | writesReg r v hd _ h =>
    obtain rfl := next_unique ht h
    have hnoop : i ≠ .noop := by rintro rfl; simp [destination] at hd
    have hret : i ≠ .ret := by rintro rfl; simp [destination] at hd
    simp [hnoop, hret]
  | raises k hk h =>
    obtain rfl := next_unique ht h
    have hnoop : i ≠ .noop := by rintro rfl; simp [raisedKind] at hk
    have hfatal : k = .emptyCallStack ↔ i = .ret ∧ s.callStack = [] := by
      refine ⟨fun hke => raisedKind_emptyCallStack (hke ▸ hk), fun ⟨hi, hs⟩ => ?_⟩
      simpa [hi, raisedKind, hs] using hk.symm
    simp [raise_run, hfatal, hnoop]
  | returns g rest hi hs h =>
    obtain rfl := next_unique ht h
    simp [hi, hs]
  | writesMem _ _ _ hi _ h | skips hi h | halts hi h | jumps _ hi h | calls _ hi h =>
    obtain rfl := next_unique ht h
    simp [hi]

theorem stop_run (s : State) : s.stop.run = if s.run = .running then .idle else s.run := by
  rw [stop_eq]
  split <;> rfl

/-- `start` of an image that the spec gives a meaning. -/
theorem input_start_of_accepted {im : Image} (s : State) (h : imageRefusal im = none) :
    input (.start im) s = .next (s.load im) :=
  (start_eq_next_iff im s (s.load im)).2 ⟨h, rfl⟩

/-- Settles O10: one clause for each row of the table of R120. -/
theorem runStateTransitionsAreTheListedOnes : Obligations.RunStateTransitionsAreTheListedOnes := by
  refine ⟨fun s => ⟨State.reset, rfl, rfl⟩,
    fun s im him => ⟨s.load im, input_start_of_accepted s him, rfl⟩,
    fun s => ⟨s.stop, rfl, stop_run s⟩,
    fun s hr => ⟨s.idleTick, step_of_not_running hr, rfl⟩,
    fun s hr hpc => ⟨s.finishProgram, step_of_pastEnd hr hpc, rfl⟩, fun s i hr hf => ?_⟩
  obtain ⟨t, ht⟩ := everyInstructionAnswersNext i s.beginEntry
  refine ⟨t, (step_of_entry hr hf).trans ht, ?_⟩
  rw [exec_run ht, State.beginEntry_callStack, State.beginEntry_run, hr]

/-! ## start, stop and reset (R110, R111, R34) -/

theorem imageRefusal_words_eq_none_iff (P : List Word) :
    imageRefusal (.words P) = none ↔ P.length ≤ 65535 := by
  rw [imageRefusal, Config.progLenMax]
  split <;> simp_all

/-- Settles O11: after `start` the pc is 0 and the event is already at its default. -/
theorem firstTickAfterStartExecutesIndexZero : Obligations.FirstTickAfterStartExecutesIndexZero := by
  intro w P s hlen
  have him : imageRefusal (.words (w :: P)) = none := (imageRefusal_words_eq_none_iff _).2 hlen
  exact ⟨_, input_start_of_accepted s him, rfl⟩

/-- Settles O12: `start` of an accepted image is `State.load`. -/
theorem startKeepsRegistersAndMemory : Obligations.StartKeepsRegistersAndMemory :=
  fun s im him => ⟨s.load im, input_start_of_accepted s him, rfl, rfl, rfl, rfl, fun _ => rfl,
    ⟨rfl, fun _ => rfl⟩, rfl⟩

/-- Settles O14: `stop` sets the run state of a running core, and otherwise the event only. -/
theorem stopOnlyIdlesARunningCore : Obligations.StopOnlyIdlesARunningCore := by
  intro s
  refine ⟨s.stop, rfl, fun hr => ?_, fun hr => ?_, fun hr => ?_, ?_⟩
  · simp [stop_run, hr]
  · simp [stop_run, hr]
  · simp [stop_run, hr]
  · rw [stop_eq]
    split <;> exact ⟨rfl, fun _ => rfl, ⟨rfl, fun _ => rfl⟩, rfl, rfl, rfl⟩

/-- Settles O15: `reset` answers the fixed reset state. -/
theorem resetClearsEverything : Obligations.ResetClearsEverything := by
  refine fun s => ⟨State.reset, rfl, rfl, ?registers, fun _ => rfl, rfl, rfl, rfl, rfl, rfl⟩
  case registers => decide

/-! ## SKIP and NOOP (R117, R119) -/

/-- Settles O16: SKIP is the default advance. -/
theorem skipOnlyAdvancesThePc : Obligations.SkipOnlyAdvancesThePc :=
  ⟨fun s => ⟨s.advance, rfl, rfl, setPc_onlyPc s _⟩, by decide, decodeT_of_no_tokens,
    fun lt l _ _ => decodeT_of_label lt l⟩

/-- Settles O17: NOOP sets the run state and nothing else. -/
theorem noopHaltsTheRun : Obligations.NoopHaltsTheRun := by
  refine ⟨fun s => ⟨s.setRun .halted, rfl, rfl, rfl, fun _ => rfl, ⟨rfl, fun _ => rfl⟩, rfl, rfl⟩,
    by decide, ?line⟩
  case line =>
    exact lineDecodes_of_command .noop (by decide) fun _ _ _ h => by simp only [decodeTokens, h]

end Sys2Proof.Machine
end

section
/-! # The invariant (10_state.md sections 4 and 5)

Each part of `Invariant` is kept by a tick for its own reason: the canonical form of memory by every write, the range of the
Call Stack because a call is executed below the end of the program, the range of the pc because a word holds a 16-bit target
and a program at most 65535 words, and the event because an error sets it together with the run state. -/

namespace Sys2Proof.Machine

/-! ## The range of the Call Stack -/

theorem pc_lt_of_entry {im : Image} {n : Nat} {i : Instr} (h : fetch im n = .entry i) :
    n < imageLength im := by
  by_contra hn
  simp [(fetch_eq_pastEnd_iff im n).2 (Nat.not_lt.1 hn)] at h

theorem step_keeps_callStack_range {s t : State} (h : step s = .next t)
    (hs : ∀ e ∈ s.callStack, 1 ≤ e ∧ e ≤ imageLength s.image) :
    ∀ e ∈ t.callStack, 1 ≤ e ∧ e ≤ imageLength t.image := by
  rw [step_image h]
  rcases step_eq_next_cases h with ⟨-, -, hsame, -⟩ | ⟨i, -, hf, he⟩
  · exact hsame ▸ hs
  rcases exec_callStack_cases he with hsame | ⟨_, -, hpush⟩ | ⟨-, e, hpop⟩
  · exact hsame ▸ hs
  · have hpc := pc_lt_of_entry hf
    rw [hpush]
    exact List.forall_mem_cons.2 ⟨⟨Nat.le_add_left 1 s.pc, hpc⟩, hs⟩
  · have hs' : ∀ e ∈ s.beginEntry.callStack, 1 ≤ e ∧ e ≤ imageLength s.image := hs
    rw [hpop] at hs'
    exact (List.forall_mem_cons.1 hs').2

/-! ## The range of the pc -/

theorem pcFits_iff (s : State) : PcFits s ↔ ∀ P, s.image = .words P → s.pc ≤ 65535 := by
  unfold PcFits
  cases s.image with
  | words P => exact ⟨fun h _ _ => h, fun h => h P rfl⟩
  | text lines lt => simp

theorem raise_pc (s : State) (k : ErrorKind) :
    (s.raise k).pc = if k = .emptyCallStack then s.pc else s.pc + 1 := by
  cases k <;> rfl

/-- The next pc is this one, the one after it, a target or the top of the Call Stack. -/
theorem exec_pc_cases {i : Instr} {s t : State} (ht : exec i s = .next t) :
    t.pc ≤ s.pc + 1 ∨ i = .jmp t.pc ∨ i = .call t.pc ∨ t.pc ∈ s.callStack := by
  cases exec_cases i s with
  | raises k _ h =>
    obtain rfl := next_unique ht h
    rw [raise_pc]
    split <;> omega
  | jumps g hi h => exact .inr (.inl (next_unique ht h ▸ hi))
  | calls g hi h => exact .inr (.inr (.inl (next_unique ht h ▸ hi)))
  | returns g rest _ hs h =>
    obtain rfl := next_unique ht h
    exact .inr (.inr (.inr (hs ▸ List.mem_cons_self)))
  | halts _ h => exact .inl (next_unique ht h ▸ Nat.le_succ s.pc)
  | writesReg _ _ _ _ h | writesMem _ _ _ _ _ h | skips _ h =>
    exact .inl (next_unique ht h ▸ Nat.le_refl _)

/-- The instruction fetched from a word holds a 16-bit target at most (R75). -/
theorem wf_of_fetch_words {P : List Word} {n : Nat} {i : Instr} (h : fetch (.words P) n = .entry i) :
    i.wf = true := by
  have hn : n < P.length := pc_lt_of_entry h
  rw [fetch_words_of_getElem? (List.getElem?_eq_getElem hn)] at h
  exact Fetched.entry.inj h ▸ everyWordDecodesToAWellFormedInstruction _

theorem step_keeps_pcFits {s t : State} (h : step s = .next t) (hpc : PcFits s)
    (him : imageRefusal s.image = none)
    (hs : ∀ e ∈ s.callStack, 1 ≤ e ∧ e ≤ imageLength s.image) : PcFits t := by
  rw [pcFits_iff] at hpc ⊢
  intro P hP
  rw [step_image h] at hP
  have hlen : P.length ≤ 65535 := (imageRefusal_words_eq_none_iff P).1 (hP ▸ him)
  rcases step_cases s with ⟨-, hstep⟩ | ⟨-, -, hstep⟩ | ⟨-, -, hstep⟩ | ⟨i, -, hf, hstep⟩
  · exact next_unique h hstep ▸ hpc P hP
  · exact next_unique h hstep ▸ hpc P hP
  · simp [hstep] at h
  · rw [hP] at hf hs
    have hbelow : s.pc < P.length := pc_lt_of_entry hf
    have hwf := wf_of_fetch_words hf
    rcases exec_pc_cases (hstep.symm.trans h) with hnext | hjmp | hcall | hret
    · have hnext : t.pc ≤ s.pc + 1 := hnext
      omega
    · rw [hjmp] at hwf
      exact of_decide_eq_true hwf
    · rw [hcall] at hwf
      exact of_decide_eq_true hwf
    · exact (hs _ hret).2.trans hlen

/-! ## The event and the run state -/

theorem eventFits_of_none {s : State} (h : s.event = .none) : EventFits s := by
  rw [EventFits, h]
  trivial

/-- R204, R205: what `raise` leaves of a running core fits the event of the kind. -/
theorem raise_eventFits {s : State} {k : ErrorKind} (hr : s.run = .running)
    (hs : k = .emptyCallStack → s.callStack = []) : EventFits (s.raise k) := by
  cases k with
  | emptyCallStack => exact ⟨rfl, hs rfl⟩
  | _ => exact hr

theorem step_eventFits {s t : State} (h : step s = .next t) : EventFits t := by
  rcases step_cases s with ⟨-, hs⟩ | ⟨-, -, hs⟩ | ⟨-, -, hs⟩ | ⟨i, hr, -, hs⟩
  · exact next_unique h hs ▸ eventFits_of_none rfl
  · exact next_unique h hs ▸ (rfl : s.finishProgram.run = .halted)
  · simp [hs] at h
  · have he : exec i s.beginEntry = .next t := hs.symm.trans h
    cases hk : raisedKind i s.beginEntry with
    | none =>
      obtain ⟨u, hu, hevent⟩ := exec_keeps_event_of_raisedKind_none hk
      exact next_unique he hu ▸ eventFits_of_none hevent
    | some k =>
      obtain rfl := next_unique he (exec_of_raisedKind hk)
      exact raise_eventFits hr fun hke => (raisedKind_emptyCallStack (hke ▸ hk)).2

/-! ## The invariant under every input event -/

/-- Settles O44: the reset state is a fixed one. -/
theorem invariantHoldsAtReset : Obligations.InvariantHoldsAtReset :=
  ⟨reset_mem_wf, fun _ he => absurd he List.not_mem_nil, rfl, Nat.zero_le _, trivial⟩

/-- Settles O45: part by part. -/
theorem stepKeepsTheInvariant : Obligations.StepKeepsTheInvariant := by
  rintro s t ⟨hmem, hstack, himage, hpc, -⟩ h
  exact ⟨step_mem_wf hmem h, step_keeps_callStack_range h hstack, (step_image h).symm ▸ himage,
    step_keeps_pcFits h hpc himage hstack, step_eventFits h⟩

theorem load_invariant {s : State} {im : Image} (hmem : s.mem.wf = true)
    (him : imageRefusal im = none) : Invariant (s.load im) :=
  ⟨hmem, fun _ he => absurd he List.not_mem_nil, him,
    (pcFits_iff _).2 fun _ _ => Nat.zero_le _, trivial⟩

theorem stop_invariant {s : State} (h : Invariant s) : Invariant s.stop := by
  obtain ⟨hmem, hstack, himage, hpc, -⟩ := h
  rw [stop_eq]
  split <;> exact ⟨hmem, hstack, himage, hpc, trivial⟩

/-- Settles O46: `reset` and `start` set what the invariant speaks of, `stop` sets the event to its default. -/
theorem startStopAndResetKeepTheInvariant : Obligations.StartStopAndResetKeepTheInvariant := by
  intro e s t hne hs h
  cases e with
  | reset => exact Host.Outcome.next.inj h ▸ invariantHoldsAtReset
  | start im =>
    obtain ⟨him, rfl⟩ := (start_eq_next_iff im s t).1 h
    exact load_invariant hs.1 him
  | stop => exact Host.Outcome.next.inj h ▸ stop_invariant hs
  | tick => exact absurd rfl hne

theorem input_keeps_invariant {e : InputEvent} {s t : State} (hs : Invariant s)
    (h : input e s = .next t) : Invariant t := by
  by_cases he : e = .tick
  · subst he
    exact stepKeepsTheInvariant s t hs h
  · exact startStopAndResetKeepTheInvariant e s t he hs h

/-! ## Progress (93_implementation_defined.md section 3) -/

theorem decodeT_ne_none_of_accepted {lines : List Line} {lt : LabelTable}
    (h : imageRefusal (.text lines lt) = none) : ∀ l ∈ lines, decodeT lt l ≠ none := by
  have hno : ¬ hasMeaninglessLine lt lines = true := by
    intro hyes
    simp [imageRefusal, hyes] at h
  intro l hl hd
  exact hno (List.any_eq_true.2 ⟨l, hl, by simp [hd]⟩)

/-- Nothing without a meaning is fetched from an image that `start` accepts. -/
theorem fetch_ne_noMeaning {im : Image} (h : imageRefusal im = none) (n : Nat) :
    fetch im n ≠ .noMeaning := by
  cases im with
  | words P => cases hw : P[n]? <;> simp [fetch, hw]
  | text lines lt =>
    cases hl : lines[n]? with
    | none => simp [fetch, hl]
    | some l =>
      cases hi : decodeT lt l with
      | none => exact absurd hi (decodeT_ne_none_of_accepted h l (List.mem_of_getElem? hl))
      | some i => simp [fetch, hl, hi]

theorem step_answers {s : State} (h : imageRefusal s.image = none) : ∃ t, step s = .next t := by
  rcases step_cases s with ⟨-, hs⟩ | ⟨-, -, hs⟩ | ⟨-, hf, -⟩ | ⟨i, -, -, hs⟩
  · exact ⟨_, hs⟩
  · exact ⟨_, hs⟩
  · exact absurd hf (fetch_ne_noMeaning h s.pc)
  · rw [hs]
    exact everyInstructionAnswersNext i s.beginEntry

theorem input_answers {e : InputEvent} {s : State} (hs : Invariant s)
    (he : ∀ im, e = .start im → imageRefusal im = none) : ∃ t, input e s = .next t := by
  cases e with
  | reset => exact ⟨_, rfl⟩
  | start im => exact ⟨_, input_start_of_accepted s (he im rfl)⟩
  | stop => exact ⟨_, rfl⟩
  | tick =>
    obtain ⟨-, -, himage, -⟩ := hs
    exact step_answers himage

theorem runInputs_answers {es : List InputEvent} {s : State} (hs : Invariant s)
    (hes : ∀ im, InputEvent.start im ∈ es → imageRefusal im = none) :
    ∃ t, runInputs es s = .next t ∧ Invariant t := by
  induction es generalizing s with
  | nil => exact ⟨s, rfl, hs⟩
  | cons e es ih =>
    obtain ⟨u, hu⟩ := input_answers hs fun im he => hes im (he ▸ List.mem_cons_self)
    have hrest (im : Image) (hmem : InputEvent.start im ∈ es) : imageRefusal im = none :=
      hes im (List.mem_cons_of_mem e hmem)
    obtain ⟨t, ht, hinv⟩ := ih (input_keeps_invariant hs hu) hrest
    exact ⟨t, (runInputs_cons_eq_next_iff e es s t).2 ⟨u, hu, ht⟩, hinv⟩

/-- Settles O47: progress and preservation of one input event, then of every run of them. -/
theorem acceptedRunsNeverStop : Obligations.AcceptedRunsNeverStop := by
  refine ⟨fun e s hs he => ?_, fun es s hs hes => runInputs_answers hs hes,
    fun es hes => runInputs_answers invariantHoldsAtReset hes⟩
  obtain ⟨t, ht⟩ := input_answers hs he
  exact ⟨t, ht, input_keeps_invariant hs ht⟩

end Sys2Proof.Machine
end

section
/-! # Calls, returns and malformed jumps (43_control.md section 2) -/

namespace Sys2Proof

/-- R79: a target behind the tag `10` is that of a call. -/
theorem decodeJump_10_resolved {lt : LabelTable} {k : Token} {g : Nat} (rest : List Token)
    (h : resolveTarget lt k = some (.resolved g)) :
    decodeJump lt ("10".toList :: k :: rest) = some (.call g) := by
  simp [decodeJump, h]

theorem decodeJump_10_unresolved {lt : LabelTable} {k : Token} (rest : List Token)
    (h : resolveTarget lt k = some .unresolved) :
    decodeJump lt ("10".toList :: k :: rest) = some .callU := by
  simp [decodeJump, h]

theorem decodeJump_01 (lt : LabelTable) (rest : List Token) :
    decodeJump lt ("01".toList :: rest) = some .ret := by
  simp [decodeJump]

theorem decodeJump_no_target (lt : LabelTable) {tag : Token}
    (h : tag = "00".toList ∨ tag = "10".toList) : decodeJump lt [tag] = some .jmpx := by
  rcases h with rfl | rfl <;> simp [decodeJump]

theorem decodeJump_other_tag (lt : LabelTable) {tag : Token} (rest : List Token)
    (h00 : tag ≠ "00".toList) (h10 : tag ≠ "10".toList) (h01 : tag ≠ "01".toList) :
    decodeJump lt (tag :: rest) = some .jmpx :=
  (if_neg h01).trans ((if_neg h00).trans (if_neg h10))

/-- The word of JMP 10 is its fixed bits with the target in bits[19:4] (30_encoding.md R84). -/
theorem wordJ_call_eq (g : BitVec 16) :
    wordJ 0b10#2 1#1 g = 0xAA000000#32 ||| g.setWidth 32 <<< 4 := rfl

end Sys2Proof

namespace Sys2Proof.Machine

/-- Settles O28: a taken call is a push and a `setPc`; its word and line are those of a jump under another tag. -/
theorem callPushesTheNextIndexAndJumps : Obligations.CallPushesTheNextIndexAndJumps := by
  refine ⟨fun g s => ?taken, fun s => ?recovers, fun g => ?word, ?unresolvedWord,
    fun lt l cmd k rest htok hcmd => ?line⟩
  case taken =>
    exact ⟨_, exec_call g s, rfl, rfl, fun _ => rfl, ⟨rfl, fun _ => rfl⟩, rfl, rfl, rfl⟩
  case recovers => exact exec_recovers_of_raisedKind (i := .callU) rfl rfl
  case word =>
    rw [← wordJ_call_eq]
    exact decodeW_wordJ_resolved 12 rfl g
  case unresolvedWord => decide
  case line =>
    rw [decodeT_of_jmp lt htok hcmd]
    refine ⟨fun g hlabel => ?_, fun g hlabel hdecimal => ?_, fun hlabel hnumber => ?_⟩
    · exact decodeJump_10_resolved rest (resolveTarget_of_label hlabel)
    · exact decodeJump_10_resolved rest (resolveTarget_of_decimal hlabel hdecimal)
    · exact decodeJump_10_unresolved rest (resolveTarget_of_not_number hlabel hnumber)

/-- Settles O29: `exec_ret_of_cons` on a non-empty Call Stack, the fatal error of the table of R201 on an empty one. -/
theorem retPopsTheCallStackOrHalts : Obligations.RetPopsTheCallStackOrHalts := by
  refine ⟨fun s g rest hs => ?pops, fun s hs => ?halts, by decide,
    fun lt l cmd rest htok hcmd => ?line⟩
  case pops =>
    exact ⟨_, exec_ret_of_cons hs, rfl, rfl, fun _ => rfl, ⟨rfl, fun _ => rfl⟩, rfl, rfl, rfl⟩
  case halts =>
    have hk : raisedKind .ret s = some .emptyCallStack := if_pos hs
    exact ⟨_, exec_of_raisedKind hk, raise_emptyCallStack_halts s⟩
  case line => rw [decodeT_of_jmp lt htok hcmd, decodeJump_01]

/-- Settles O30: JMPX is an entry of the table of R201, and what every other `JMP` line decodes to. -/
theorem jmpxReportsInvalidOperand : Obligations.JmpxReportsInvalidOperand := by
  refine ⟨fun s => exec_recovers_of_raisedKind (i := .jmpx) rfl rfl, by decide,
    fun lt l cmd ops htok hcmd => ?line⟩
  case line =>
    rw [decodeT_of_jmp lt htok hcmd]
    refine ⟨fun hops => ?noTag, fun hops => ?noTarget, fun tag rest hops h00 h10 h01 => ?otherTag⟩
    case noTag => rw [hops, decodeJump]
    case noTarget =>
      rcases hops with rfl | rfl
      · exact decodeJump_no_target lt (.inl rfl)
      · exact decodeJump_no_target lt (.inr rfl)
    case otherTag => rw [hops, decodeJump_other_tag lt rest h00 h10 h01]

end Sys2Proof.Machine
end

section
/-! # Lines without meaning and refused lines (30_encoding.md R94)

The decoder gives up only where a jump or call target has no resolution; the assembler refuses these lines and, among the
decoded ones, those whose target or literal does not fit its 16-bit field. -/

namespace Sys2Proof

/-- R79: a jump line has no meaning when its tag wants a target and the target has no resolution. -/
theorem decodeJump_eq_none_iff (lt : LabelTable) (ops : List Token) :
    decodeJump lt ops = none ↔ ∃ tag k rest, ops = tag :: k :: rest ∧
      (tag = "00".toList ∨ tag = "10".toList) ∧ resolveTarget lt k = none := by
  constructor
  · intro h
    rcases ops with _ | ⟨tag, rest⟩
    · simp [decodeJump] at h
    by_cases hneeds : tag = "00".toList ∨ tag = "10".toList
    · rcases rest with _ | ⟨k, rest⟩
      · simp [decodeJump_no_target lt hneeds] at h
      · refine ⟨tag, k, rest, rfl, hneeds, ?_⟩
        cases hk : resolveTarget lt k with
        | none => rfl
        | some target =>
          rcases hneeds with rfl | rfl <;> cases target <;> simp [decodeJump, hk] at h
    · obtain ⟨h00, h10⟩ := not_or.1 hneeds
      by_cases h01 : tag = "01".toList
      · rw [h01, decodeJump_01] at h
        cases h
      · simp [decodeJump_other_tag lt rest h00 h10 h01] at h
  · rintro ⟨tag, k, rest, rfl, rfl | rfl, hk⟩ <;> simp [decodeJump, hk]

/-- R74: of all commands, only `JMP` has lines without meaning. -/
theorem decodeTokens_eq_none_iff (lt : LabelTable) (cmd : Token) (ops : List Token) :
    decodeTokens lt (cmd :: ops) = none ↔
      commandOf cmd = some .jmp ∧ decodeJump lt ops = none := by
  cases hc : commandOf cmd with
  | none => simp [decodeTokens, hc]
  | some k => cases k <;> simp [decodeTokens, hc]

end Sys2Proof

namespace Sys2Proof.Machine

theorem decodeT_eq_none_iff (lt : LabelTable) (l : Line) :
    decodeT lt l = none ↔ NegativeTargetLine lt l := by
  constructor
  · intro h
    cases htok : tokens l with
    | nil => simp [decodeT_of_no_tokens lt l htok] at h
    | cons cmd ops =>
      obtain ⟨c, t, rfl⟩ := exists_cons_of_tokens htok
      have hdot : c ≠ '.' := by
        rintro rfl
        simp [decodeT_of_label lt l htok] at h
      rw [decodeT_of_tokens lt l htok hdot, decodeTokens_eq_none_iff, decodeJump_eq_none_iff] at h
      obtain ⟨hcmd, tag, k, rest, rfl, htag, hk⟩ := h
      obtain ⟨hlabel, digits, n, rfl, hn⟩ := (resolveTarget_eq_none_iff lt k).1 hk
      exact ⟨_, tag, digits, rest, n, htok, (commandOf_eq_jmp_iff _).1 hcmd, htag, hlabel, hn⟩
  · rintro ⟨cmd, tag, digits, rest, n, htok, hcmd, htag, hlabel, hn⟩
    rw [decodeT_of_jmp lt htok hcmd, decodeJump_eq_none_iff]
    exact ⟨tag, _, rest, rfl, htag, (resolveTarget_eq_none_iff lt _).2 ⟨hlabel, digits, n, rfl, hn⟩⟩

theorem asmWord_eq_none_iff (i : Instr) : asmWord i = none ↔ i.assemblable = false := by
  cases h : i.assemblable <;> simp [asmWord, h]

/-- R94 (b), (c): the decoded instructions whose target or literal does not fit. -/
theorem assemblable_eq_false_iff (i : Instr) : i.assemblable = false ↔
    (∃ g, (i = .jmp g ∨ i = .call g) ∧ 65535 < g) ∨
    (∃ a v, i = .imm a (.lit v) ∧ (v < -32768 ∨ 65535 < v)) := by
  have htarget (t : Nat) : (decide (t ≤ Config.targetMax)) = false ↔ 65535 < t := by
    rw [decide_eq_false_iff_not, Nat.not_le, Config.targetMax]
  cases i with
  | jmp t => simp [Instr.assemblable, htarget]
  | call t => simp [Instr.assemblable, htarget]
  | imm a v =>
    cases v with
    | bad => simp [Instr.assemblable, Literal.assemblable]
    | lit v =>
      have hlit : (Literal.lit v).assemblable = false ↔ v < -32768 ∨ 65535 < v := by
        rw [← Bool.not_eq_true, assemblable_lit_iff]
        omega
      simp [Instr.assemblable, hlit]
  | _ => simp [Instr.assemblable]

/-- Settles O50: a line is refused because it has no decoded instruction, or because `asmWord` refuses that one. -/
theorem asmRefusesExactlyTheListedLines : Obligations.AsmRefusesExactlyTheListedLines := by
  refine ⟨decodeT_eq_none_iff, fun lt l => ?_⟩
  rw [← decodeT_eq_none_iff]
  cases hd : decodeT lt l with
  | none => simp [asmLine, hd]
  | some i => simp [asmLine_of_decodeT hd, asmWord_eq_none_iff, assemblable_eq_false_iff]

theorem hasMeaninglessLine_iff (lines : List Line) (lt : LabelTable) :
    hasMeaninglessLine lt lines = true ↔ ∃ l ∈ lines, NegativeTargetLine lt l := by
  simp [hasMeaninglessLine, ← decodeT_eq_none_iff]

/-- R94: an image of lines is refused when one of them has no meaning, and only then. -/
theorem imageRefusal_text_of_negative {lines : List Line} {lt : LabelTable}
    (h : ∃ l ∈ lines, NegativeTargetLine lt l) :
    imageRefusal (.text lines lt) = some .negativeTarget :=
  if_pos ((hasMeaninglessLine_iff lines lt).2 h)

theorem imageRefusal_text_of_not_negative {lines : List Line} {lt : LabelTable}
    (h : ∀ l ∈ lines, ¬ NegativeTargetLine lt l) : imageRefusal (.text lines lt) = none := by
  refine if_neg fun hany => ?_
  obtain ⟨l, hl, hneg⟩ := (hasMeaninglessLine_iff lines lt).1 hany
  exact h l hl hneg

theorem start_refused {im : Image} {r : Refusal} (s : State) (h : imageRefusal im = some r) :
    input (.start im) s = .refused r := by
  simp only [input, start, h]

/-- Settles O13: `imageRefusal` of the two kinds of image. -/
theorem startRefusesOnlyWhatTheSpecRefuses : Obligations.StartRefusesOnlyWhatTheSpecRefuses := by
  refine ⟨fun P s hlen => start_refused s (if_neg (Nat.not_le.2 hlen)),
    fun P s hlen => ⟨_, input_start_of_accepted s ((imageRefusal_words_eq_none_iff P).2 hlen)⟩,
    fun lines lt s hneg => start_refused s (imageRefusal_text_of_negative hneg),
    fun lines lt s hno => ⟨_, input_start_of_accepted s (imageRefusal_text_of_not_negative hno)⟩⟩

/-! ## The program of a text (R90, R96) -/

/-- The words of an assembled text are those of its lines, in order. -/
theorem asmLines_eq_some_iff (lt : LabelTable) (lines : List Line) (P : List Word) :
    asmLines lt lines = some P ↔ lines.map (asmLine lt) = P.map some := by
  induction lines generalizing P with
  | nil => cases P <;> simp [asmLines]
  | cons l ls ih =>
    simp only [asmLines, List.map_cons]
    cases hl : asmLine lt l with
    | none => cases P <;> simp
    | some w =>
      cases P with
      | nil => cases asmLines lt ls <;> simp
      | cons v P =>
        rw [List.map_cons, List.cons.injEq, ← ih P]
        cases asmLines lt ls <;> simp

theorem assemble_eq_some_iff (src : List Char) (P : List Word) :
    assemble src = some P ↔ (splitLines src).length ≤ 65535 ∧
      asmLines (labelTable (splitLines src)) (splitLines src) = some P := by
  rw [assemble, Config.progLenMax]
  split <;> simp [*]

/-- Settles O51: when `assemble` refuses, and the word at each index otherwise. -/
theorem assembledProgramKeepsEveryIndex : Obligations.AssembledProgramKeepsEveryIndex := by
  refine ⟨fun src => ?refuses, fun src P hP => ?keeps⟩
  case refuses =>
    rw [← asmLines_eq_none_iff, assemble, Config.progLenMax]
    by_cases hlen : (splitLines src).length ≤ 65535
    · simp [hlen]
    · simp [hlen, Nat.not_le.1 hlen]
  case keeps =>
    obtain ⟨hlen, hasm⟩ := (assemble_eq_some_iff src P).1 hP
    have hmap := (asmLines_eq_some_iff _ _ P).1 hasm
    have hsame : P.length = (splitLines src).length := by
      simpa using (congrArg List.length hmap).symm
    refine ⟨hsame, hsame ▸ hlen, fun n l hl => ?_⟩
    have hn := congrArg (·[n]?) hmap
    simp only [List.getElem?_map, hl, Option.map_some] at hn
    cases hw : P[n]? with
    | none => simp [hw] at hn
    | some w => simpa [hw] using hn.symm

end Sys2Proof.Machine
end

section
/-! # The two levels agree (00_scope.md section 6, 30_encoding.md R98)

The decoded word may hold other operands than the line, but never ones that execute differently: a bad or too large operand
becomes 0xFF, which is no register and no cell, and a literal becomes its remainder by 65536, which is the same byte. -/

namespace Sys2Proof.Machine

/-! ## One line -/

/-- R91: an operand that does not fit its field is stored as 0xFF. -/
theorem storedOperand_of_wf_false {o : Operand} (h : o.wf = false) : storedOperand o = .num 255 := by
  cases o with
  | num n =>
    have hn : ¬ n ≤ 255 := of_decide_eq_false h
    rw [storedOperand, Operand.field, if_neg hn]
    rfl
  | bad => rfl

/-- Every register and every cell fits an 8-bit field. -/
theorem names_nothing_of_wf_false {o : Operand} (h : o.wf = false) :
    regOf o = none ∧ cellOf o = none := by
  cases o with
  | num n =>
    have hn : ¬ n ≤ 255 := of_decide_eq_false h
    exact ⟨dif_neg (by omega), dif_neg (by omega)⟩
  | bad => exact ⟨rfl, rfl⟩

/-- R91: a stored operand names the register that the operand names. -/
theorem regOf_storedOperand (o : Operand) : regOf (storedOperand o) = regOf o := by
  cases h : o.wf with
  | true => rw [storedOperand_of_wf h]
  | false => exact (storedOperand_of_wf_false h).symm ▸ (names_nothing_of_wf_false h).1.symm

/-- R91: a stored operand names the cell that the operand names. -/
theorem cellOf_storedOperand (o : Operand) : cellOf (storedOperand o) = cellOf o := by
  cases h : o.wf with
  | true => rw [storedOperand_of_wf h]
  | false => exact (storedOperand_of_wf_false h).symm ▸ (names_nothing_of_wf_false h).2.symm

/-- R92: a literal and its remainder by 65536 are the same byte. -/
theorem literalByte_emod (i : Int) : literalByte (.lit (i % 65536)) = literalByte (.lit i) := by
  have hbyte : BitVec.ofInt 8 (i % 65536) = BitVec.ofInt 8 i := by
    refine BitVec.eq_of_toInt_eq ?_
    rw [BitVec.toInt_ofInt, BitVec.toInt_ofInt, Int.bmod_def, Int.bmod_def]
    omega
  rw [literalByte, literalByte, hbyte]

theorem aluThree_storedOperand (f : Byte → Byte → Byte) (a b c : Operand) (s : State) :
    aluThree f (storedOperand a) (storedOperand b) (storedOperand c) s = aluThree f a b c s := by
  simp only [aluThree, regOf_storedOperand]

/-- R98: what the word of an assembled instruction holds executes as the instruction does. -/
theorem exec_storedInstr {i : Instr} (h : i.assemblable = true) (s : State) :
    exec (storedInstr i) s = exec i s := by
  cases i with
  | skip | noop | jmpU | callU | ret | jmpx | unknown => rfl
  | add a b c => exact aluThree_storedOperand (fun va vb => vb + va) a b c s
  | sub a b c => exact aluThree_storedOperand (fun va vb => vb - va) a b c s
  | or a b c => exact aluThree_storedOperand _ a b c s
  | xor a b c => exact aluThree_storedOperand _ a b c s
  | and a b c => exact aluThree_storedOperand _ a b c s
  | not a => simp only [storedInstr, exec, execNot, regOf_storedOperand]
  | rsh a b => simp only [storedInstr, exec, execRsh, regOf_storedOperand]
  | imm a v =>
    cases v with
    | lit i => simp only [storedInstr, exec, execImm, regOf_storedOperand, literalByte_emod]
    | bad =>
      have hbad : raisedKind (.imm (.num 255) (.lit 0)) s = some .invalidOperand := rfl
      exact (exec_of_raisedKind hbad).trans (exec_of_raisedKind rfl).symm
  | jmp t => rw [storedInstr, mod_65536_of_le (of_decide_eq_true h)]
  | call t => rw [storedInstr, mod_65536_of_le (of_decide_eq_true h)]
  | rlod a m =>
    simp only [storedInstr, exec, execRlod, regOf_storedOperand, cellOf_storedOperand]
  | rstr a m =>
    simp only [storedInstr, exec, execRstr, regOf_storedOperand, cellOf_storedOperand]

/-- Settles O48: the decoded word is `storedInstr` of the decoded line. -/
theorem levelsAgreeOnEveryLine : Obligations.LevelsAgreeOnEveryLine := by
  intro lt l w h
  obtain ⟨i, hd, hi, rfl⟩ := (asmLine_eq_some_iff lt l w).1 h
  refine ⟨i, hd, fun s => ?_⟩
  rw [decodeW_encode]
  exact exec_storedInstr hi s

/-! ## A whole run -/

/-- What a text and its assembled words have in common: at every index there is no entry in either, or both entries
execute alike. -/
def SameMeaning (im im' : Image) : Prop :=
  ∀ n : Nat, (fetch im n = .pastEnd ∧ fetch im' n = .pastEnd) ∨
    ∃ i i', fetch im n = .entry i ∧ fetch im' n = .entry i' ∧ ∀ s, exec i' s = exec i s

theorem sameMeaning_of_assemble {src : List Char} {P : List Word} (h : assemble src = some P) :
    SameMeaning (parse src) (.words P) := by
  intro n
  obtain ⟨hlen, -, hindex⟩ := assembledProgramKeepsEveryIndex.2 src P h
  cases hl : (splitLines src)[n]? with
  | none =>
    have hn : (splitLines src).length ≤ n := List.getElem?_eq_none_iff.1 hl
    exact .inl ⟨(fetch_eq_pastEnd_iff _ n).2 hn, (fetch_eq_pastEnd_iff _ n).2 (hlen.trans_le hn)⟩
  | some l =>
    have hn : n < P.length := hlen ▸ (List.getElem?_eq_some_iff.1 hl).1
    have hw := List.getElem?_eq_getElem hn
    obtain ⟨i, hd, hexec⟩ := levelsAgreeOnEveryLine _ l P[n] ((hindex n l hl).symm.trans hw)
    exact .inr ⟨i, decodeW P[n], fetch_text_of_getElem? hl hd, fetch_words_of_getElem? hw, hexec⟩

/-- One tick under either image of the same meaning: the next states differ in the image alone. -/
theorem step_setImage_of_sameMeaning {im' : Image} {s : State} (h : SameMeaning s.image im') :
    ∃ t, step s = .next t ∧ step (s.setImage im') = .next (t.setImage im') := by
  by_cases hr : s.run = .running
  · rcases h s.pc with ⟨hf, hf'⟩ | ⟨i, i', hf, hf', hexec⟩
    · have hend := (fetch_eq_pastEnd_iff _ _).1 hf
      have hend' := (fetch_eq_pastEnd_iff _ _).1 hf'
      exact ⟨_, step_of_pastEnd hr hend, step_of_pastEnd (s := s.setImage im') hr hend'⟩
    · obtain ⟨t, ht⟩ := everyInstructionAnswersNext i s.beginEntry
      refine ⟨t, (step_of_entry hr hf).trans ht, ?_⟩
      rw [step_of_entry (s := s.setImage im') hr hf', hexec]
      exact exec_setImage im' ht
  · exact ⟨_, step_of_not_running hr, step_of_not_running (s := s.setImage im') hr⟩

theorem ticks_setImage_of_sameMeaning (k : Nat) {im' : Image} {s : State}
    (h : SameMeaning s.image im') :
    ∃ t, ticks k s = .next t ∧ ticks k (s.setImage im') = .next (t.setImage im') := by
  induction k generalizing s with
  | zero => exact ⟨s, rfl, rfl⟩
  | succ k ih =>
    obtain ⟨u, hu, hu'⟩ := step_setImage_of_sameMeaning h
    obtain ⟨t, ht, ht'⟩ := ih ((step_image hu).symm ▸ h)
    exact ⟨t, (ticks_succ_eq_next_iff k s t).2 ⟨u, hu, ht⟩,
      (ticks_succ_eq_next_iff k _ _).2 ⟨_, hu', ht'⟩⟩

/-- A text that assembles has no line without meaning, and its words are not too many. -/
theorem imageRefusal_of_assemble {src : List Char} {P : List Word} (h : assemble src = some P) :
    imageRefusal (parse src) = none ∧ imageRefusal (.words P) = none := by
  obtain ⟨-, hlen, -⟩ := assembledProgramKeepsEveryIndex.2 src P h
  refine ⟨imageRefusal_text_of_not_negative fun l hl hneg => ?_,
    (imageRefusal_words_eq_none_iff P).2 hlen⟩
  have hnone : asmLine (labelTable (splitLines src)) l = none :=
    (asmRefusesExactlyTheListedLines.2 _ l).2 (.inl hneg)
  have hrefused := (assembledProgramKeepsEveryIndex.1 src).2 (.inr ⟨l, hl, hnone⟩)
  simp [hrefused] at h

/-- Settles O49: `start` loads two images of the same meaning, and every tick keeps the states equal but for them. -/
theorem runsAgreeAtBothLevels : Obligations.RunsAgreeAtBothLevels := by
  intro src P h k s
  obtain ⟨htext, hwords⟩ := imageRefusal_of_assemble h
  obtain ⟨t, ht, ht'⟩ := ticks_setImage_of_sameMeaning k (s := s.load (parse src))
    (sameMeaning_of_assemble h)
  exact ⟨t,
    (runInputs_cons_eq_next_iff _ _ s t).2 ⟨_, input_start_of_accepted s htext, ht⟩,
    ticks_image ht,
    (runInputs_cons_eq_next_iff _ _ s _).2 ⟨_, input_start_of_accepted s hwords, ht'⟩⟩

end Sys2Proof.Machine
end

section
/-! # Lines and tokens (30_encoding.md R70, R71, R73) -/

namespace Sys2Proof

/-! ## Ranges of characters -/

/-- A list of the characters numbered from `lo` to below `lo + n` holds every character of that range. -/
theorem mem_of_char_range {chars : List Char} {lo n : Nat}
    (h : chars.map Char.toNat = List.range' lo n) {c : Char} (hlo : lo ≤ c.toNat)
    (hhi : c.toNat < lo + n) : c ∈ chars := by
  have hc : c.toNat ∈ chars.map Char.toNat := h ▸ List.mem_range'_1.2 ⟨hlo, hhi⟩
  obtain ⟨d, hd, hdc⟩ := List.mem_map.1 hc
  exact Char.toNat_inj.1 hdc ▸ hd

theorem upperChar_of_not_lower {c : Char} (h : c ∉ "abcdefghijklmnopqrstuvwxyz".toList) :
    upperChar c = c := by
  refine if_neg fun ⟨hlo, hhi⟩ => h ?_
  have hlo : 97 ≤ c.toNat := hlo
  have hhi : c.toNat ≤ 122 := hhi
  exact mem_of_char_range (lo := 97) (n := 26) rfl hlo (by omega)

theorem upperToken_alphabet :
    upperToken "abcdefghijklmnopqrstuvwxyz".toList = "ABCDEFGHIJKLMNOPQRSTUVWXYZ".toList := by decide

theorem upperChar_of_lower {c : Char} (h : c ∈ "abcdefghijklmnopqrstuvwxyz".toList) :
    upperChar c ∈ "ABCDEFGHIJKLMNOPQRSTUVWXYZ".toList :=
  upperToken_alphabet ▸ List.mem_map_of_mem h

/-- Folding makes no dot and takes none away. -/
theorem upperChar_eq_dot_iff (c : Char) : upperChar c = '.' ↔ c = '.' := by
  by_cases h : c ∈ "abcdefghijklmnopqrstuvwxyz".toList
  · have hupper := upperChar_of_lower h
    constructor
    · intro hdot
      rw [hdot] at hupper
      exact absurd hupper (by decide)
    · rintro rfl
      exact absurd h (by decide)
  · rw [upperChar_of_not_lower h]

/-! ## Tokens -/

theorem isSpace_iff (c : Char) : isSpace c = true ↔ c = ' ' ∨ c = '\t' ∨ c = '\r' := by
  simp [isSpace, or_assoc]

/-- Characters that are no whitespace extend the token being read. -/
theorem tokensFrom_of_no_space (cur t : Token) (ht : ∀ c ∈ t, isSpace c = false)
    (hne : cur ++ t ≠ []) : tokensFrom cur t = [cur ++ t] := by
  induction t generalizing cur with
  | nil =>
    rw [List.append_nil] at hne ⊢
    exact if_neg hne
  | cons c cs ih =>
    obtain ⟨hc, hcs⟩ := List.forall_mem_cons.1 ht
    rw [tokensFrom, hc, if_neg (by simp), ih (cur ++ [c]) hcs (by simp)]
    simp

/-- Whitespace ends the token being read. -/
theorem tokensFrom_append_cons (cur : Token) (l l' : Line) {c : Char} (hc : isSpace c = true) :
    tokensFrom cur (l ++ c :: l') = tokensFrom cur l ++ tokens l' := by
  induction l generalizing cur with
  | nil =>
    by_cases hcur : cur = [] <;> simp [tokensFrom, tokens, hc, hcur]
  | cons d ds ih =>
    by_cases hd : isSpace d = true
    · by_cases hcur : cur = [] <;> simp [tokensFrom, hd, hcur, ih]
    · simp [tokensFrom, hd, ih]

/-- Settles O58: the clauses follow the reading of a line character by character. -/
theorem tokensAreTheMaximalRunsOfNonSpace : Obligations.TokensAreTheMaximalRunsOfNonSpace := by
  refine ⟨isSpace_iff, rfl, fun t hne ht => tokensFrom_of_no_space [] t ht hne,
    fun l l' c hc => tokensFrom_append_cons [] l l' hc, upperToken_alphabet, fun c hc => ?_,
    fun t t' => List.map_append⟩
  exact congrArg (· :: []) (upperChar_of_not_lower hc)

theorem tokens_append_spaces (l : Line) {after : Line} (h : ∀ c ∈ after, isSpace c = true) :
    tokens (l ++ after) = tokens l :=
  tokensFrom_append_spaces [] l after h

theorem tokens_spaces_append {before : Line} (l : Line) (h : ∀ c ∈ before, isSpace c = true) :
    tokens (before ++ l) = tokens l := by
  rw [← tokens_dropWhile, List.dropWhile_append_of_pos h, tokens_dropWhile]

/-- Two lines with the same tokens decode alike. -/
theorem decodeT_congr (lt : LabelTable) {l l' : Line} (h : tokens l = tokens l') :
    decodeT lt l = decodeT lt l' := by
  rw [decodeT_eq_of_tokens, decodeT_eq_of_tokens, h]

/-- Tokens that fold alike name the same command. -/
theorem commandOf_congr {t t' : Token} (h : upperToken t = upperToken t') :
    commandOf t = commandOf t' := by
  rw [commandOf, commandOf, h]

theorem decodeTokens_congr (lt : LabelTable) {cmd cmd' : Token} (ops : List Token)
    (h : upperToken cmd = upperToken cmd') :
    decodeTokens lt (cmd :: ops) = decodeTokens lt (cmd' :: ops) := by
  rw [decodeTokens, decodeTokens, commandOf_congr h]

/-- Settles O55: a line decodes by its tokens, which whitespace around it leaves, and its command token by its folding. -/
theorem surroundingSpaceAndCommandCaseDoNotMatter :
    Obligations.SurroundingSpaceAndCommandCaseDoNotMatter := by
  refine ⟨fun lt l before after hbefore hafter => ?space, fun lt l l' cmd cmd' ops h h' hup => ?case⟩
  case space =>
    exact decodeT_congr lt ((tokens_append_spaces _ hafter).trans (tokens_spaces_append l hbefore))
  case case =>
    obtain ⟨c, t, rfl⟩ := exists_cons_of_tokens h
    obtain ⟨c', t', rfl⟩ := exists_cons_of_tokens h'
    have hfirst : upperChar c = upperChar c' := (List.cons.inj hup).1
    have hdot : c = '.' ↔ c' = '.' := by
      rw [← upperChar_eq_dot_iff, hfirst, upperChar_eq_dot_iff]
    by_cases hc : c = '.'
    · obtain rfl := hc
      obtain rfl := hdot.1 rfl
      rw [decodeT_of_label lt l h, decodeT_of_label lt l' h']
    · rw [decodeT_of_tokens lt l h hc, decodeT_of_tokens lt l' h' (mt hdot.2 hc)]
      exact decodeTokens_congr lt ops hup

end Sys2Proof

namespace Sys2Proof.Machine

/-! ## Lines (R70) -/

theorem splitLinesFrom_ne_nil (cur : Line) (src : List Char) : splitLinesFrom cur src ≠ [] := by
  induction src generalizing cur with
  | nil => simp [splitLinesFrom]
  | cons c cs ih =>
    rw [splitLinesFrom]
    split
    · simp
    · exact ih _

theorem intercalate_splitLinesFrom (cur : Line) (src : List Char) :
    List.intercalate ['\n'] (splitLinesFrom cur src) = cur ++ src := by
  induction src generalizing cur with
  | nil => simp [splitLinesFrom]
  | cons c cs ih =>
    rw [splitLinesFrom]
    split
    · next hc =>
      obtain ⟨l, ls, hls⟩ := List.exists_cons_of_ne_nil (splitLinesFrom_ne_nil [] cs)
      rw [hls, List.intercalate_cons_cons, ← hls, ih, hc]
      simp
    · rw [ih]
      simp

theorem no_lineFeed_splitLinesFrom {cur : Line} (src : List Char) (hcur : '\n' ∉ cur) :
    ∀ l ∈ splitLinesFrom cur src, '\n' ∉ l := by
  induction src generalizing cur with
  | nil => simpa [splitLinesFrom] using hcur
  | cons c cs ih =>
    rw [splitLinesFrom]
    split
    · exact List.forall_mem_cons.2 ⟨hcur, ih List.not_mem_nil⟩
    · next hc => exact ih (by simpa [hcur] using Ne.symm hc)

/-- Settles O53, with any part of the current line already read. -/
theorem linesRejoinToTheSourceText : Obligations.LinesRejoinToTheSourceText :=
  fun src => ⟨intercalate_splitLinesFrom [] src, no_lineFeed_splitLinesFrom src List.not_mem_nil⟩

end Sys2Proof.Machine
end

section
/-! # Numbers (30_encoding.md R77) -/

namespace Sys2Proof

theorem digitValue_of_not_digit {c : Char} (h : c ∉ "0123456789".toList) : digitValue c = none := by
  refine if_neg fun ⟨hlo, hhi⟩ => h ?_
  have hlo : 48 ≤ c.toNat := hlo
  have hhi : c.toNat ≤ 57 := hhi
  exact mem_of_char_range (lo := 48) (n := 10) rfl hlo (by omega)

theorem decimalFrom_append {t : Token} {c : Char} {acc v d : Nat} (ht : decimalFrom acc t = some v)
    (hc : digitValue c = some d) : decimalFrom acc (t ++ [c]) = some (v * 10 + d) := by
  induction t generalizing acc with
  | nil =>
    obtain rfl : acc = v := Option.some.inj ht
    simp [decimalFrom, hc]
  | cons e es ih =>
    rw [List.cons_append, decimalFrom]
    rw [decimalFrom] at ht
    cases he : digitValue e with
    | none => simp [he] at ht
    | some x => exact ih (by simpa [he] using ht)

theorem decimal_of_ne_nil {t : Token} (h : t ≠ []) : decimal t = decimalFrom 0 t := by
  obtain ⟨c, cs, rfl⟩ := List.exists_cons_of_ne_nil h
  rfl

theorem ne_nil_of_decimal {t : Token} {v : Nat} (h : decimal t = some v) : t ≠ [] := by
  rintro rfl
  cases h

/-- Settles O54: `decimalFrom` reads the digits from the left. -/
theorem decimalTokensArePositional : Obligations.DecimalTokensArePositional := by
  refine ⟨by decide, fun c => digitValue_of_not_digit, fun c d hc => ?one, fun t c v d ht hc => ?append,
    fun t hne => ?zero, fun t c hmem hc => ?other, rfl⟩
  case one => simp [decimal, decimalFrom, hc]
  case append =>
    rw [decimal_of_ne_nil (by simp)]
    exact decimalFrom_append (decimal_of_ne_nil (ne_nil_of_decimal ht) ▸ ht) hc
  case zero =>
    rw [decimal_of_ne_nil hne]
    rfl
  case other =>
    rw [decimal_of_ne_nil (List.ne_nil_of_mem hmem)]
    exact decimalFrom_eq_none t 0 hmem hc

theorem negativeDecimal_eq_some_iff (t : Token) (n : Nat) :
    negativeDecimal t = some n ↔ ∃ digits, t = '-' :: digits ∧ decimal digits = some n := by
  cases t with
  | nil => simp [negativeDecimal]
  | cons c cs =>
    by_cases hc : c = '-'
    · simp [negativeDecimal, hc]
    · simp [negativeDecimal, hc]

/-- A number token is a decimal, or a minus sign and a decimal. -/
theorem number_eq_some_iff (t : Token) (i : Int) : number t = some i ↔
    (∃ n : Nat, decimal t = some n ∧ i = n) ∨
    (∃ (digits : Token) (n : Nat), t = '-' :: digits ∧ decimal digits = some n ∧ i = -n) := by
  have hneg : (∃ (digits : Token) (n : Nat), t = '-' :: digits ∧ decimal digits = some n ∧ i = -n) ↔
      ∃ n : Nat, negativeDecimal t = some n ∧ i = -n := by
    simp only [negativeDecimal_eq_some_iff]
    constructor
    · rintro ⟨digits, n, ht, hd, hi⟩
      exact ⟨n, ⟨digits, ht, hd⟩, hi⟩
    · rintro ⟨n, ⟨digits, ht, hd⟩, hi⟩
      exact ⟨digits, n, ht, hd, hi⟩
  rw [hneg, number]
  cases hd : decimal t with
  | some n =>
    have hno (k : Nat) : negativeDecimal t ≠ some k := by
      intro hk
      obtain ⟨digits, rfl, -⟩ := (negativeDecimal_eq_some_iff t k).1 hk
      simp [decimal_minus] at hd
    simp [hno, eq_comm]
  | none => cases negativeDecimal t <;> simp [eq_comm]

/-- R77: an index token holds the number it spells unless that is negative. -/
theorem indexOperand_eq_num_iff (t : Token) (n : Nat) :
    indexOperand (some t) = .num n ↔ number t = some (n : Int) := by
  cases ht : number t with
  | none => simp [indexOperand, ht]
  | some i =>
    by_cases hi : 0 ≤ i
    · simp only [indexOperand, ht, hi, if_true, Operand.num.injEq, Option.some.injEq]
      omega
    · simp only [indexOperand, ht, hi, if_false, reduceCtorEq, Option.some.injEq, false_iff]
      omega

theorem literalOperand_eq_lit_iff (t : Token) (i : Int) :
    literalOperand (some t) = .lit i ↔ number t = some i := by
  cases ht : number t <;> simp [literalOperand, ht]

theorem operand_eq_bad_iff (o : Operand) : o = .bad ↔ ∀ n, o ≠ .num n := by
  cases o <;> simp

theorem literal_eq_bad_iff (v : Literal) : v = .bad ↔ ∀ i, v ≠ .lit i := by
  cases v <;> simp

/-- Settles O59: what a token is converted to when it spells a number, and `bad` when it does not. -/
theorem numberTokensConvertToOperands : Obligations.NumberTokensConvertToOperands := by
  refine ⟨number_eq_some_iff, rfl, rfl, indexOperand_eq_num_iff, fun t => ?_, literalOperand_eq_lit_iff,
    fun t => ?_⟩
  · simp only [operand_eq_bad_iff, ne_eq, indexOperand_eq_num_iff]
  · simp only [literal_eq_bad_iff, ne_eq, literalOperand_eq_lit_iff, Option.eq_none_iff_forall_ne_some]

end Sys2Proof
end

section
/-! # The Label Table (30_encoding.md R71, R72)

A line declares a name when its trimmed content is a dot and the name. The table of a list of lines is built from the first
line on, so a further line either overwrites what its own name maps to or leaves the table as it was. -/

namespace Sys2Proof

/-! ## Declarations (R71) -/

theorem dropWhile_isSpace_eq_self {l : Line} (h : ∀ c, l.head? = some c → isSpace c = false) :
    l.dropWhile isSpace = l := by
  cases l with
  | nil => rfl
  | cons c cs => exact List.dropWhile_cons_of_neg (by simp [h c rfl])

/-- Trimming takes the whitespace on both sides and no more. -/
theorem trim_space_append {before content after : Line} (hbefore : ∀ c ∈ before, isSpace c = true)
    (hafter : ∀ c ∈ after, isSpace c = true) (hne : content ≠ [])
    (hhead : ∀ c, content.head? = some c → isSpace c = false)
    (hlast : ∀ c, content.getLast? = some c → isSpace c = false) :
    trim (before ++ (content ++ after)) = content := by
  have hstart : (content ++ after).dropWhile isSpace = content ++ after := by
    refine dropWhile_isSpace_eq_self fun c hc => hhead c ?_
    rwa [List.head?_append_of_ne_nil _ hne] at hc
  have hend : (content.reverse).dropWhile isSpace = content.reverse :=
    dropWhile_isSpace_eq_self fun c hc => hlast c (List.head?_reverse ▸ hc)
  have hafter' : ∀ c ∈ after.reverse, isSpace c = true := fun c hc =>
    hafter c (List.mem_reverse.1 hc)
  rw [trim, List.dropWhile_append_of_pos hbefore, hstart, List.reverse_append,
    List.dropWhile_append_of_pos hafter', hend, List.reverse_reverse]

theorem labelName_eq_some_iff_trim (l : Line) (name : Token) :
    labelName l = some name ↔ trim l = '.' :: name := by
  unfold labelName
  cases trim l with
  | nil => simp
  | cons c cs => by_cases hc : c = '.' <;> simp [hc]

/-- The last character of a declaration is the dot only if the name is empty. -/
theorem getLast?_dot_cons_not_space_iff (name : Token) :
    (∀ c, ('.' :: name).getLast? = some c → isSpace c = false) ↔
      ∀ c, name.getLast? = some c → isSpace c = false := by
  cases name with
  | nil => simp [isSpace]
  | cons d ds => simp [List.getLast?_cons_cons]

theorem labelName_eq_some_iff (l : Line) (name : Token) : labelName l = some name ↔
    ∃ before after : Line, (∀ c ∈ before, isSpace c = true) ∧ (∀ c ∈ after, isSpace c = true) ∧
      (∀ c, name.getLast? = some c → isSpace c = false) ∧ l = before ++ '.' :: (name ++ after) := by
  rw [labelName_eq_some_iff_trim]
  constructor
  · intro h
    obtain ⟨before, after, hbefore, hafter, hlast, hl⟩ := eq_space_append_trim l
    rw [h] at hlast hl
    exact ⟨before, after, hbefore, hafter, (getLast?_dot_cons_not_space_iff name).1 hlast, hl⟩
  · rintro ⟨before, after, hbefore, hafter, hlast, rfl⟩
    refine trim_space_append (content := '.' :: name) hbefore hafter (by simp) ?_
      ((getLast?_dot_cons_not_space_iff name).2 hlast)
    rintro c ⟨⟩
    rfl

end Sys2Proof

namespace Sys2Proof.Machine

/-! ## The table (R72) -/

theorem labelsFrom_cons (n : Nat) (lt : LabelTable) (l : Line) (lines : List Line) :
    labelsFrom n lt (l :: lines) = labelsFrom (n + 1) (labelsFrom n lt [l]) lines := by
  cases h : labelName l <;> simp [labelsFrom, h]

theorem labelsFrom_append (n : Nat) (lt : LabelTable) (lines lines' : List Line) :
    labelsFrom n lt (lines ++ lines') =
      labelsFrom (n + lines.length) (labelsFrom n lt lines) lines' := by
  induction lines generalizing n lt with
  | nil => rfl
  | cons l ls ih =>
    rw [List.cons_append, labelsFrom_cons, ih, ← labelsFrom_cons, List.length_cons,
      Nat.add_assoc, Nat.add_comm 1]

/-- One more line at the end: its index if it declares the name, and otherwise what the lines before it give. -/
theorem lookupLabel_labelTable_concat (name : Token) (lines : List Line) (l : Line) :
    lookupLabel name (labelTable (lines ++ [l])) =
      if labelName l = some name then some lines.length else lookupLabel name (labelTable lines) := by
  rw [labelTable, labelsFrom_append, Nat.zero_add]
  cases h : labelName l with
  | none => simp [labelsFrom, h, labelTable]
  | some k => simp [labelsFrom, h, labelTable, lookupLabel_declareLabel]

/-- Line `n` declares the name and no later line does. -/
def LastDeclares (name : Token) (lines : List Line) (n : Nat) : Prop :=
  (∃ l, lines[n]? = some l ∧ labelName l = some name) ∧
    ∀ m l, n < m → lines[m]? = some l → labelName l ≠ some name

theorem getElem?_concat_eq_some_iff (lines : List Line) (l k : Line) (n : Nat) :
    (lines ++ [l])[n]? = some k ↔ lines[n]? = some k ∨ (n = lines.length ∧ k = l) := by
  rw [List.getElem?_append]
  split
  · next hn =>
    have hne : n ≠ lines.length := Nat.ne_of_lt hn
    simp [hne]
  · next hn =>
    have hnone : lines[n]? = none := List.getElem?_eq_none (Nat.not_lt.1 hn)
    rw [List.getElem?_singleton, hnone]
    by_cases he : n = lines.length
    · simp [he, eq_comm]
    · have hpos : n - lines.length ≠ 0 := by omega
      simp [he, hpos]

theorem lastDeclares_concat_of_declares {name : Token} {lines : List Line} {l : Line}
    (h : labelName l = some name) (n : Nat) :
    LastDeclares name (lines ++ [l]) n ↔ n = lines.length := by
  constructor
  · rintro ⟨⟨k, hk, -⟩, hlater⟩
    have hn : n < (lines ++ [l]).length := (List.getElem?_eq_some_iff.1 hk).1
    rw [List.length_append, List.length_singleton] at hn
    by_contra hne
    exact hlater lines.length l (by omega) List.getElem?_concat_length h
  · rintro rfl
    refine ⟨⟨l, List.getElem?_concat_length, h⟩, fun m k hm hk => ?_⟩
    have hlt : m < (lines ++ [l]).length := (List.getElem?_eq_some_iff.1 hk).1
    rw [List.length_append, List.length_singleton] at hlt
    omega

theorem lastDeclares_concat_of_not_declares {name : Token} {lines : List Line} {l : Line}
    (h : labelName l ≠ some name) (n : Nat) :
    LastDeclares name (lines ++ [l]) n ↔ LastDeclares name lines n := by
  have hdeclares (m : Nat) (k : Line) (hk : labelName k = some name) :
      (lines ++ [l])[m]? = some k ↔ lines[m]? = some k := by
    rw [getElem?_concat_eq_some_iff]
    exact or_iff_left fun ⟨_, hkl⟩ => h (hkl ▸ hk)
  constructor
  · rintro ⟨⟨k, hk, hname⟩, hlater⟩
    exact ⟨⟨k, (hdeclares n k hname).1 hk, hname⟩,
      fun m j hm hj hjname => hlater m j hm ((hdeclares m j hjname).2 hj) hjname⟩
  · rintro ⟨⟨k, hk, hname⟩, hlater⟩
    exact ⟨⟨k, (hdeclares n k hname).2 hk, hname⟩,
      fun m j hm hj hjname => hlater m j hm ((hdeclares m j hjname).1 hj) hjname⟩

theorem lookupLabel_labelTable_eq_some_iff (name : Token) (lines : List Line) (n : Nat) :
    lookupLabel name (labelTable lines) = some n ↔ LastDeclares name lines n := by
  induction lines using List.reverseRecOn with
  | nil => simp [labelTable, labelsFrom, lookupLabel, LastDeclares]
  | append_singleton lines l ih =>
    rw [lookupLabel_labelTable_concat]
    by_cases h : labelName l = some name
    · rw [if_pos h, lastDeclares_concat_of_declares h, Option.some.injEq, eq_comm]
    · rw [if_neg h, lastDeclares_concat_of_not_declares h, ih]

theorem lookupLabel_labelTable_eq_none_iff (name : Token) (lines : List Line) :
    lookupLabel name (labelTable lines) = none ↔ ∀ l ∈ lines, labelName l ≠ some name := by
  induction lines using List.reverseRecOn with
  | nil => simp [labelTable, labelsFrom, lookupLabel]
  | append_singleton lines l ih =>
    rw [lookupLabel_labelTable_concat, List.forall_mem_append, List.forall_mem_singleton, ← ih]
    by_cases h : labelName l = some name <;> simp [h]

/-- Settles O52: the declared name by trimming, and the table by induction on the lines from the last one. -/
theorem labelTableHoldsTheLastDeclaration : Obligations.LabelTableHoldsTheLastDeclaration :=
  ⟨labelName_eq_some_iff, fun lines name =>
    ⟨lookupLabel_labelTable_eq_some_iff name lines, lookupLabel_labelTable_eq_none_iff name lines⟩⟩

end Sys2Proof.Machine
end

section
/-! # Outputs (60_exceptions.md R203, 40_sequencer.md R116) -/

namespace Sys2Proof.Machine

/-- The table of R203 read from the code to the event. -/
def eventOfCode (code : BitVec 3) : Event :=
  match code.toNat with
  | 1 => .invalidOperand
  | 2 => .unresolvedTarget
  | 3 => .unknownInstruction
  | 4 => .emptyCallStack
  | 5 => .programFinished
  | _ => .none

theorem eventOfCode_code : Function.LeftInverse eventOfCode Event.code
  | .none | .invalidOperand | .unresolvedTarget | .unknownInstruction | .emptyCallStack
  | .programFinished => rfl

theorem code_lt_six (e : Event) : e.code.toNat < 6 := by
  cases e <;> decide

/-- Settles O56: the table of R203 is read back from its codes, and has none above 5. -/
theorem eventCodesAreDistinct : Obligations.EventCodesAreDistinct := by
  refine ⟨rfl, rfl, rfl, rfl, rfl, rfl, fun _ _ h => eventOfCode_code.injective h, fun e => ?_⟩
  have hlt := code_lt_six e
  exact ⟨fun h => absurd (h ▸ hlt) (by decide), fun h => absurd (h ▸ hlt) (by decide)⟩

/-- Settles O57: a dump is its accessor at every index in order. -/
theorem dumpsShowEveryRegisterAndCell : Obligations.DumpsShowEveryRegisterAndCell := by
  refine fun s => ⟨by simp [State.regDump], fun r => ?_, by simp [State.memDump], fun a => ?_⟩
  · simp [State.regDump]
  · simp [State.memDump]

end Sys2Proof.Machine
end
